-- ==== Sys2Proof/Word.lean ====
section
/-! DEFINITION. The widths of the core's values (spec/00_scope.md R7, R9): every value is unsigned. -/

namespace Sys2Proof

/-- A byte: a general register, a timer, a cell of the store. -/
abbrev Byte := BitVec 8

/-- A 16-bit value: I, PC, a stack slot, an instruction word. -/
abbrev Word := BitVec 16

/-- A 4-bit field of an instruction word: the opcode family, a register index, a sprite height, a sub-opcode. -/
abbrev Nibble := BitVec 4

/-- The index of a general register V0–VF (R30). -/
abbrev Reg := BitVec 4

/-- A 12-bit address or immediate (the field `nnn` of R92). -/
abbrev Addr12 := BitVec 12

/-- A key code 0..15 (R253). -/
abbrev Key := BitVec 4

/-- VF, the flag register (R31). -/
abbrev VF : Reg := 0xF#4

end Sys2Proof
end

