-- ==== Sys2Proof/Syntax.lean ====
section
/-! DEFINITION. The instructions: one constructor for every row of spec/opcode_table.json (spec/30_encoding.md R95–R103).

A constructor carries EVERY bit of the word that the row leaves open, the ignored ones too (the low nibble of 5xyN and
9xyN, R100; y of SHR and SHL, R168, R170; the sub-opcode of a no-op word), so that a word and its instruction determine
each other. -/

namespace Sys2Proof

inductive Instr where
  /-- 00E0 CLS (R200) -/
  | cls
  /-- 00EE RET (R141) -/
  | ret
  /-- 0nnn SYS nnn, every other word of family 0x0 (R140) -/
  | sys (nnn : Addr12)
  /-- 1nnn JP nnn (R142) -/
  | jp (nnn : Addr12)
  /-- 2nnn CALL nnn (R143) -/
  | call (nnn : Addr12)
  /-- 3xkk SE Vx, kk (R144) -/
  | seImm (x : Reg) (kk : Byte)
  /-- 4xkk SNE Vx, kk (R145) -/
  | sneImm (x : Reg) (kk : Byte)
  /-- 5xyN SE Vx, Vy; the low nibble n is ignored (R146, R100) -/
  | seReg (x y : Reg) (n : Nibble)
  /-- 6xkk LD Vx, kk (R160) -/
  | ldImm (x : Reg) (kk : Byte)
  /-- 7xkk ADD Vx, kk (R161) -/
  | addImm (x : Reg) (kk : Byte)
  /-- 8xy0 LD Vx, Vy (R162) -/
  | ldReg (x y : Reg)
  /-- 8xy1 OR Vx, Vy (R163) -/
  | orReg (x y : Reg)
  /-- 8xy2 AND Vx, Vy (R164) -/
  | andReg (x y : Reg)
  /-- 8xy3 XOR Vx, Vy (R165) -/
  | xorReg (x y : Reg)
  /-- 8xy4 ADD Vx, Vy (R166) -/
  | addReg (x y : Reg)
  /-- 8xy5 SUB Vx, Vy (R167) -/
  | subReg (x y : Reg)
  /-- 8xy6 SHR Vx; y is ignored (R168) -/
  | shr (x y : Reg)
  /-- 8xy7 SUBN Vx, Vy (R169) -/
  | subnReg (x y : Reg)
  /-- 8xyE SHL Vx; y is ignored (R170) -/
  | shl (x y : Reg)
  /-- 8xyN, n in 8..D and F: no-op (R171) -/
  | nop8 (x y : Reg) (n : Nibble)
  /-- 9xyN SNE Vx, Vy; the low nibble n is ignored (R147, R100) -/
  | sneReg (x y : Reg) (n : Nibble)
  /-- Annn LD I, nnn (R180) -/
  | ldI (nnn : Addr12)
  /-- Bnnn JP V0, nnn (R148) -/
  | jpV0 (nnn : Addr12)
  /-- Cxkk RND Vx, kk (R172) -/
  | rnd (x : Reg) (kk : Byte)
  /-- Dxyn DRW Vx, Vy, n (R201) -/
  | drw (x y : Reg) (n : Nibble)
  /-- Ex9E SKP Vx (R220) -/
  | skp (x : Reg)
  /-- ExA1 SKNP Vx (R221) -/
  | sknp (x : Reg)
  /-- Exkk, every other kk: no-op (R222) -/
  | nopE (x : Reg) (kk : Byte)
  /-- Fx07 LD Vx, DT (R223) -/
  | ldVxDt (x : Reg)
  /-- Fx0A LD Vx, K (R224) -/
  | ldVxK (x : Reg)
  /-- Fx15 LD DT, Vx (R225) -/
  | ldDtVx (x : Reg)
  /-- Fx18 LD ST, Vx (R226) -/
  | ldStVx (x : Reg)
  /-- Fx1E ADD I, Vx (R181) -/
  | addI (x : Reg)
  /-- Fx29 LD F, Vx (R182) -/
  | ldF (x : Reg)
  /-- Fx33 LD B, Vx (R183) -/
  | ldB (x : Reg)
  /-- Fx55 LD [I], Vx (R184) -/
  | stRegs (x : Reg)
  /-- Fx65 LD Vx, [I] (R185) -/
  | ldRegs (x : Reg)
  /-- Fxkk, every other kk: no-op (R227) -/
  | nopF (x : Reg) (kk : Byte)
  deriving DecidableEq, Repr

end Sys2Proof
end

