-- ==== Sys2Proof/WellFormed.lean ====
section
/-! DEFINITION. Which terms of `Instr` are instructions of the core: a catch-all no-op term carries only the sub-opcodes
that the opcode map leaves to it (spec/30_encoding.md R102). Every other field is as wide as its type, so it needs no check. -/

namespace Sys2Proof

/-- The low 12 bits of family 0x0 that are not a legacy system call (R96). -/
def sysTaken : List Addr12 := [0x0E0#12, 0x0EE#12]

/-- The sub-opcodes of family 0x8 that name an instruction (R97). -/
def sub8Taken : List Nibble := [0x0#4, 0x1#4, 0x2#4, 0x3#4, 0x4#4, 0x5#4, 0x6#4, 0x7#4, 0xE#4]

/-- The low bytes of family 0xE that name an instruction (R98). -/
def subETaken : List Byte := [0x9E#8, 0xA1#8]

/-- The low bytes of family 0xF that name an instruction (R99). -/
def subFTaken : List Byte := [0x07#8, 0x0A#8, 0x15#8, 0x18#8, 0x1E#8, 0x29#8, 0x33#8, 0x55#8, 0x65#8]

/-- The instruction is one that a word can stand for. -/
def Instr.wf : Instr → Bool
  | .sys nnn => !sysTaken.contains nnn
  | .nop8 _ _ n => !sub8Taken.contains n
  | .nopE _ kk => !subETaken.contains kk
  | .nopF _ kk => !subFTaken.contains kk
  | .cls => true
  | .ret => true
  | .jp _ => true
  | .call _ => true
  | .seImm _ _ => true
  | .sneImm _ _ => true
  | .seReg _ _ _ => true
  | .ldImm _ _ => true
  | .addImm _ _ => true
  | .ldReg _ _ => true
  | .orReg _ _ => true
  | .andReg _ _ => true
  | .xorReg _ _ => true
  | .addReg _ _ => true
  | .subReg _ _ => true
  | .shr _ _ => true
  | .subnReg _ _ => true
  | .shl _ _ => true
  | .sneReg _ _ _ => true
  | .ldI _ => true
  | .jpV0 _ => true
  | .rnd _ _ => true
  | .drw _ _ _ => true
  | .skp _ => true
  | .sknp _ => true
  | .ldVxDt _ => true
  | .ldVxK _ => true
  | .ldDtVx _ => true
  | .ldStVx _ => true
  | .addI _ => true
  | .ldF _ => true
  | .ldB _ => true
  | .stRegs _ => true
  | .ldRegs _ => true

end Sys2Proof
end

