-- ==== Sys2Proof/Decode.lean ====
section
/-! DEFINITION. The decoder, total on words (spec/30_encoding.md R90–R103), the decoder of a byte string, the encoder written
from the formats of R94, and the rows of spec/opcode_table.json. -/

namespace Sys2Proof

/-! ## The fields of a word (R92) -/

/-- `fam = w[15:12]`, the opcode family. -/
def famOf (w : Word) : Nibble := w.extractLsb' 12 4

/-- `x = w[11:8]`. -/
def xOf (w : Word) : Nibble := w.extractLsb' 8 4

/-- `y = w[7:4]`. -/
def yOf (w : Word) : Nibble := w.extractLsb' 4 4

/-- `n = w[3:0]`. -/
def nOf (w : Word) : Nibble := w.extractLsb' 0 4

/-- `kk = w[7:0]`. -/
def kkOf (w : Word) : Byte := w.extractLsb' 0 8

/-- `nnn = w[11:0]`. -/
def nnnOf (w : Word) : Addr12 := w.extractLsb' 0 12

/-! ## The decoder -/

/-- Family 0x0, on the low 12 bits (R96). -/
def decode0 (nnn : Addr12) : Instr :=
  if nnn = 0x0E0#12 then .cls else if nnn = 0x0EE#12 then .ret else .sys nnn

/-- Family 0x8, on the low nibble (R97). The parameter MOVE_8XY0 is read where the instruction runs (R162). -/
def decode8 (x y : Reg) (n : Nibble) : Instr :=
  match n.toNat with
  | 0x0 => .ldReg x y
  | 0x1 => .orReg x y
  | 0x2 => .andReg x y
  | 0x3 => .xorReg x y
  | 0x4 => .addReg x y
  | 0x5 => .subReg x y
  | 0x6 => .shr x y
  | 0x7 => .subnReg x y
  | 0xE => .shl x y
  | _ => .nop8 x y n

/-- Family 0xE, on the low byte (R98). -/
def decodeE (x : Reg) (kk : Byte) : Instr :=
  if kk = 0x9E#8 then .skp x else if kk = 0xA1#8 then .sknp x else .nopE x kk

/-- Family 0xF, on the low byte (R99). -/
def decodeF (x : Reg) (kk : Byte) : Instr :=
  if kk = 0x07#8 then .ldVxDt x
  else if kk = 0x0A#8 then .ldVxK x
  else if kk = 0x15#8 then .ldDtVx x
  else if kk = 0x18#8 then .ldStVx x
  else if kk = 0x1E#8 then .addI x
  else if kk = 0x29#8 then .ldF x
  else if kk = 0x33#8 then .ldB x
  else if kk = 0x55#8 then .stRegs x
  else if kk = 0x65#8 then .ldRegs x
  else .nopF x kk

/-- `Decode(w)` (R103): every word is one instruction; all 16 families are assigned (R95). -/
def decode (w : Word) : Instr :=
  match (famOf w).toNat with
  | 0x0 => decode0 (nnnOf w)
  | 0x1 => .jp (nnnOf w)
  | 0x2 => .call (nnnOf w)
  | 0x3 => .seImm (xOf w) (kkOf w)
  | 0x4 => .sneImm (xOf w) (kkOf w)
  | 0x5 => .seReg (xOf w) (yOf w) (nOf w)
  | 0x6 => .ldImm (xOf w) (kkOf w)
  | 0x7 => .addImm (xOf w) (kkOf w)
  | 0x8 => decode8 (xOf w) (yOf w) (nOf w)
  | 0x9 => .sneReg (xOf w) (yOf w) (nOf w)
  | 0xA => .ldI (nnnOf w)
  | 0xB => .jpV0 (nnnOf w)
  | 0xC => .rnd (xOf w) (kkOf w)
  | 0xD => .drw (xOf w) (yOf w) (nOf w)
  | 0xE => decodeE (xOf w) (kkOf w)
  | _ => decodeF (xOf w) (kkOf w)

/-- The word of two bytes in the order the store holds them, high byte first (R64, R91). -/
def wordOfBytes (hi lo : Byte) : Word := hi ++ lo

/-- The high byte of a word, the one stored at PC (R64). -/
def hiByte (w : Word) : Byte := w.extractLsb' 8 8

/-- The low byte of a word, the one stored at PC + 1 (R64). -/
def loByte (w : Word) : Byte := w.extractLsb' 0 8

/-- Why a byte string is no instruction. -/
inductive DecodeError where
  /-- fewer than two bytes: an instruction is one 16-bit word (R90). Safe: the fetch always supplies two. -/
  | truncated
  deriving DecidableEq, Repr

/-- The first instruction of a byte string, with the bytes after it. -/
def decodeBytes : List Byte → Except DecodeError (Instr × List Byte)
  | hi :: lo :: rest => .ok (decode (wordOfBytes hi lo), rest)
  | [_] => .error .truncated
  | [] => .error .truncated

/-- What the decoder reads from an opcode-table word: the word's bits above `nbits` are 0, it is laid out high byte first
(R64) and given to `decodeBytes`. -/
def decodeTableWord (nbits w : Nat) : Option Instr :=
  let word : Word := BitVec.ofNat 16 (w % 2 ^ nbits)
  match decodeBytes [hiByte word, loByte word] with
  | .ok (i, _) => some i
  | .error _ => none

/-! ## The encoder (R94) -/

/-- A word from its four nibbles, bit 15 at the left. -/
def wordOf (f a b c : Nibble) : Word := f ++ a ++ b ++ c

/-- Format NNN. -/
def encNNN (f : Nibble) (nnn : Addr12) : Word := f ++ nnn

/-- Format XKK, and format X with its sub-opcode byte. -/
def encXKK (f : Nibble) (x : Reg) (kk : Byte) : Word := f ++ x ++ kk

/-- Format XYN, and format XY with its sub-opcode or ignored nibble. -/
def encXYN (f : Nibble) (x y : Reg) (n : Nibble) : Word := wordOf f x y n

/-- The word of an instruction. -/
def encode : Instr → Word
  | .cls => encNNN 0x0 0x0E0#12
  | .ret => encNNN 0x0 0x0EE#12
  | .sys nnn => encNNN 0x0 nnn
  | .jp nnn => encNNN 0x1 nnn
  | .call nnn => encNNN 0x2 nnn
  | .seImm x kk => encXKK 0x3 x kk
  | .sneImm x kk => encXKK 0x4 x kk
  | .seReg x y n => encXYN 0x5 x y n
  | .ldImm x kk => encXKK 0x6 x kk
  | .addImm x kk => encXKK 0x7 x kk
  | .ldReg x y => encXYN 0x8 x y 0x0
  | .orReg x y => encXYN 0x8 x y 0x1
  | .andReg x y => encXYN 0x8 x y 0x2
  | .xorReg x y => encXYN 0x8 x y 0x3
  | .addReg x y => encXYN 0x8 x y 0x4
  | .subReg x y => encXYN 0x8 x y 0x5
  | .shr x y => encXYN 0x8 x y 0x6
  | .subnReg x y => encXYN 0x8 x y 0x7
  | .shl x y => encXYN 0x8 x y 0xE
  | .nop8 x y n => encXYN 0x8 x y n
  | .sneReg x y n => encXYN 0x9 x y n
  | .ldI nnn => encNNN 0xA nnn
  | .jpV0 nnn => encNNN 0xB nnn
  | .rnd x kk => encXKK 0xC x kk
  | .drw x y n => encXYN 0xD x y n
  | .skp x => encXKK 0xE x 0x9E
  | .sknp x => encXKK 0xE x 0xA1
  | .nopE x kk => encXKK 0xE x kk
  | .ldVxDt x => encXKK 0xF x 0x07
  | .ldVxK x => encXKK 0xF x 0x0A
  | .ldDtVx x => encXKK 0xF x 0x15
  | .ldStVx x => encXKK 0xF x 0x18
  | .addI x => encXKK 0xF x 0x1E
  | .ldF x => encXKK 0xF x 0x29
  | .ldB x => encXKK 0xF x 0x33
  | .stRegs x => encXKK 0xF x 0x55
  | .ldRegs x => encXKK 0xF x 0x65
  | .nopF x kk => encXKK 0xF x kk

/-! ## The opcode table -/

/-- A row of spec/opcode_table.json. A word selects the row with `(w & mask) == value` and `priority` 0, and where there is
none the matching row with `priority` 1 (spec/INDEX.md). -/
structure OpRow where
  mask : Word
  value : Word
  priority : Nat
  deriving DecidableEq, Repr

/-- The row of an instruction in spec/opcode_table.json, its numbers transcribed. -/
def rowOf : Instr → OpRow
  | .cls => ⟨0xFFFF, 0x00E0, 0⟩
  | .ret => ⟨0xFFFF, 0x00EE, 0⟩
  | .sys _ => ⟨0xF000, 0x0000, 1⟩
  | .jp _ => ⟨0xF000, 0x1000, 0⟩
  | .call _ => ⟨0xF000, 0x2000, 0⟩
  | .seImm _ _ => ⟨0xF000, 0x3000, 0⟩
  | .sneImm _ _ => ⟨0xF000, 0x4000, 0⟩
  | .seReg _ _ _ => ⟨0xF000, 0x5000, 0⟩
  | .ldImm _ _ => ⟨0xF000, 0x6000, 0⟩
  | .addImm _ _ => ⟨0xF000, 0x7000, 0⟩
  | .ldReg _ _ => ⟨0xF00F, 0x8000, 0⟩
  | .orReg _ _ => ⟨0xF00F, 0x8001, 0⟩
  | .andReg _ _ => ⟨0xF00F, 0x8002, 0⟩
  | .xorReg _ _ => ⟨0xF00F, 0x8003, 0⟩
  | .addReg _ _ => ⟨0xF00F, 0x8004, 0⟩
  | .subReg _ _ => ⟨0xF00F, 0x8005, 0⟩
  | .shr _ _ => ⟨0xF00F, 0x8006, 0⟩
  | .subnReg _ _ => ⟨0xF00F, 0x8007, 0⟩
  | .shl _ _ => ⟨0xF00F, 0x800E, 0⟩
  | .nop8 _ _ _ => ⟨0xF000, 0x8000, 1⟩
  | .sneReg _ _ _ => ⟨0xF000, 0x9000, 0⟩
  | .ldI _ => ⟨0xF000, 0xA000, 0⟩
  | .jpV0 _ => ⟨0xF000, 0xB000, 0⟩
  | .rnd _ _ => ⟨0xF000, 0xC000, 0⟩
  | .drw _ _ _ => ⟨0xF000, 0xD000, 0⟩
  | .skp _ => ⟨0xF0FF, 0xE09E, 0⟩
  | .sknp _ => ⟨0xF0FF, 0xE0A1, 0⟩
  | .nopE _ _ => ⟨0xF000, 0xE000, 1⟩
  | .ldVxDt _ => ⟨0xF0FF, 0xF007, 0⟩
  | .ldVxK _ => ⟨0xF0FF, 0xF00A, 0⟩
  | .ldDtVx _ => ⟨0xF0FF, 0xF015, 0⟩
  | .ldStVx _ => ⟨0xF0FF, 0xF018, 0⟩
  | .addI _ => ⟨0xF0FF, 0xF01E, 0⟩
  | .ldF _ => ⟨0xF0FF, 0xF029, 0⟩
  | .ldB _ => ⟨0xF0FF, 0xF033, 0⟩
  | .stRegs _ => ⟨0xF0FF, 0xF055, 0⟩
  | .ldRegs _ => ⟨0xF0FF, 0xF065, 0⟩
  | .nopF _ _ => ⟨0xF000, 0xF000, 1⟩

/-- The rows of spec/opcode_table.json with priority 0 of families 0x0–0x7. -/
def priorityRowsLow : List OpRow :=
  [⟨0xFFFF, 0x00E0, 0⟩, ⟨0xFFFF, 0x00EE, 0⟩, ⟨0xF000, 0x1000, 0⟩, ⟨0xF000, 0x2000, 0⟩, ⟨0xF000, 0x3000, 0⟩,
   ⟨0xF000, 0x4000, 0⟩, ⟨0xF000, 0x5000, 0⟩, ⟨0xF000, 0x6000, 0⟩, ⟨0xF000, 0x7000, 0⟩]

/-- The rows with priority 0 of families 0x8–0xD. -/
def priorityRowsMid : List OpRow :=
  [⟨0xF00F, 0x8000, 0⟩, ⟨0xF00F, 0x8001, 0⟩, ⟨0xF00F, 0x8002, 0⟩, ⟨0xF00F, 0x8003, 0⟩, ⟨0xF00F, 0x8004, 0⟩,
   ⟨0xF00F, 0x8005, 0⟩, ⟨0xF00F, 0x8006, 0⟩, ⟨0xF00F, 0x8007, 0⟩, ⟨0xF00F, 0x800E, 0⟩, ⟨0xF000, 0x9000, 0⟩,
   ⟨0xF000, 0xA000, 0⟩, ⟨0xF000, 0xB000, 0⟩, ⟨0xF000, 0xC000, 0⟩, ⟨0xF000, 0xD000, 0⟩]

/-- The rows with priority 0 of families 0xE and 0xF. -/
def priorityRowsHigh : List OpRow :=
  [⟨0xF0FF, 0xE09E, 0⟩, ⟨0xF0FF, 0xE0A1, 0⟩, ⟨0xF0FF, 0xF007, 0⟩, ⟨0xF0FF, 0xF00A, 0⟩, ⟨0xF0FF, 0xF015, 0⟩,
   ⟨0xF0FF, 0xF018, 0⟩, ⟨0xF0FF, 0xF01E, 0⟩, ⟨0xF0FF, 0xF029, 0⟩, ⟨0xF0FF, 0xF033, 0⟩, ⟨0xF0FF, 0xF055, 0⟩,
   ⟨0xF0FF, 0xF065, 0⟩]

/-- All rows with priority 0: the 34 instructions besides SYS. -/
def priorityRows : List OpRow := priorityRowsLow ++ priorityRowsMid ++ priorityRowsHigh

/-- The rows with priority 1: SYS and the no-op rows of families 0x8, 0xE and 0xF. -/
def fallbackRows : List OpRow :=
  [⟨0xF000, 0x0000, 1⟩, ⟨0xF000, 0x8000, 1⟩, ⟨0xF000, 0xE000, 1⟩, ⟨0xF000, 0xF000, 1⟩]

/-- The word matches the row's fixed bits. -/
def OpRow.selects (r : OpRow) (w : Word) : Bool := w &&& r.mask == r.value

end Sys2Proof
end

