-- ==== Sys2Proof/Config.lean ====
section
/-! DEFINITION. What is fixed for the machine, the inputs of a step, and the free values (spec/00_scope.md R7, R8;
spec/40_fetch_dispatch.md R129). -/

namespace Sys2Proof

/-- The number of bytes of the store, addresses 0x000–0xFFF (R7, R60). -/
def Config.storeSize : Nat := 0x1000

/-- The program load address (R7, R256). -/
def Config.loadAddress : Nat := 0x200

/-- The longest program image, in bytes (R7, R256). -/
def Config.maxImage : Nat := 0xE00

/-- The number of font bytes at 0x000–0x04F: 16 glyphs of 5 bytes (R7, R52). -/
def Config.fontSize : Nat := 80

/-- The inputs of one step, which the core does not store (R129). `keys` says of each key code whether the key is held;
`choice` is the collaborator's choice among the held keys, followed when that key is held; `rand` is the answer of
`RandByte()`; `keyOutOfRange` is the answer of `KeyOutOfRange(k)` for a key code above 15 (R220). -/
structure StepInput where
  keys : Vector Bool 16
  choice : Key
  rand : Byte
  keyOutOfRange : Bool
  deriving DecidableEq, Repr, Inhabited

/-- FREE VALUE (log 3): the inputs of the n-th step whose inputs no schedule gives. It has no body: nothing is known of it
(R129 "A model leaves `keys`, the choice within `heldKey`, and `rand` unconstrained (draws)"). -/
opaque Config.freeInput : Nat → StepInput

end Sys2Proof
end

