-- ==== Sys2Proof/Machine/State.lean ====
section
/-! DEFINITION. The state of the core (spec/10_state.md), the outputs a model keeps beside it (R47, R242), and the host's
interactions still to come (spec/60_exceptions.md R258). -/

namespace Sys2Proof.Machine

/-- The store as a sparse list of cells, in the canonical form `Memory.wf` (Machine/Store.lean). -/
abbrev Memory := List Host.Cell

/-- One row of the framebuffer: 64 columns, column 0 leftmost (R45). -/
abbrev FbRow := Vector Bool 64

/-- The framebuffer FB: 32 rows, row 0 at the top; true is on (R45). -/
abbrev Framebuffer := Vector FbRow 32

/-- The direction of an access in an addressing error (R241). -/
inductive AccessKind where
  | read
  | write
  deriving DecidableEq, Repr

/-- The error records, complete (R241). An error is an output, never a stop (R240, R242). -/
inductive ErrorRecord where
  /-- codes 1 and 2: the exact address outside 0x000–0xFFF -/
  | addressing (kind : AccessKind) (addr : Nat)
  /-- code 3: PC when the push was attempted -/
  | stackOverflow (pc : Word)
  /-- code 4: PC when the pop was attempted -/
  | stackUnderflow (pc : Word)
  deriving DecidableEq, Repr

/-- The handler result (R124). -/
inductive HandlerResult where
  | completed
  | retry
  deriving DecidableEq, Repr

/-- One interaction of the host with the running core (R258). -/
inductive HostAct where
  /-- `step()` with its inputs (R129) -/
  | cpu (inp : StepInput)
  /-- `frameTick()` (R250) -/
  | tick
  /-- the quit signal: no further interaction (R257) -/
  | quit
  deriving DecidableEq, Repr

/-- Why the machine would stop with a fault: never. "No condition in this core is fatal" (R126), and no error is a trap
(R240), so the type has no constructor. -/
inductive Fault where
  deriving DecidableEq, Repr

/-- Why the machine gives no next state. -/
inductive Refusal where
  /-- raised by `exec` for an instruction that has no meaning yet; safe -/
  | notModelled (mnemonic : String)
  /-- raised by `launch` for an image above 0xE00 bytes, which is outside the interface (R256, D24); safe -/
  | imageTooLong
  deriving DecidableEq, Repr

structure State where
  /-- V0–VF (R30); V[15] is the flag register VF (R31) -/
  v : Vector Byte 16
  /-- the index register I (R33) -/
  i : Word
  /-- the program counter PC (R34) -/
  pc : Word
  /-- the delay timer DT (R38) -/
  dt : Byte
  /-- the sound timer ST (R39) -/
  st : Byte
  /-- the stack pointer SP, −1 when the stack is empty (R41) -/
  sp : Int
  /-- the call stack's slots (R40) -/
  stack : Vector Word 16
  /-- the store MEM (R60) -/
  mem : Memory
  /-- the framebuffer FB (R45) -/
  fb : Framebuffer
  /-- OUTPUT: the handler result of the latest step (R124) -/
  result : HandlerResult
  /-- OUTPUT: every error reported so far, oldest first (R242) -/
  errors : List ErrorRecord
  /-- OUTPUT: every framebuffer presented so far, oldest first (R255) -/
  presented : List Framebuffer
  /-- MODEL: the inputs of the step in progress (R129); `step` writes it before every instruction (log 3) -/
  input : StepInput
  /-- MODEL: the host's interactions still to come, the next one first (R251, R258; log 2) -/
  schedule : List HostAct
  /-- MODEL: how many free inputs have been drawn (log 3) -/
  draws : Nat
  /-- MODEL: the spec's parameter MOVE_8XY0 (R8, D2; log 7) -/
  move8xy0 : Bool
  deriving DecidableEq, Repr

/-- The inputs that stand in `input` before the first step: no key held. No instruction reads them (log 3). -/
def State.noInput : StepInput where
  keys := Vector.replicate 16 false
  choice := 0
  rand := 0
  keyOutOfRange := false

/-- The machine right after reset with no program loaded (R49–R53, R270, R271): `launch` (Machine/Interface.lean) is the
reset that also places a program image. -/
def State.reset : State where
  v := Vector.replicate 16 0
  i := 0
  pc := 0x200#16
  dt := 0
  st := 0
  sp := -1
  stack := Vector.replicate 16 0
  mem := []
  fb := Vector.replicate 32 (Vector.replicate 64 false)
  result := .completed
  errors := []
  presented := []
  input := State.noInput
  schedule := []
  draws := 0
  move8xy0 := true

/-! ## The updates every operation is made of -/

/-- `V[r] <- b` (R10). -/
def State.setReg (s : State) (r : Reg) (b : Byte) : State := { s with v := s.v.set r.toNat b r.isLt }

/-- `I <- w`. -/
def State.setI (s : State) (w : Word) : State := { s with i := w }

/-- `pc <- w`. -/
def State.setPc (s : State) (w : Word) : State := { s with pc := w }

/-- `DT <- b`. -/
def State.setDt (s : State) (b : Byte) : State := { s with dt := b }

/-- `ST <- b`. -/
def State.setSt (s : State) (b : Byte) : State := { s with st := b }

/-- `SP <- n`. -/
def State.setSp (s : State) (n : Int) : State := { s with sp := n }

/-- `stack[j] <- w`; an index above 15, which no legal SP gives, names no slot. -/
def State.setSlot (s : State) (j : Int) (w : Word) : State := { s with stack := s.stack.setIfInBounds j.toNat w }

/-- the store replaced -/
def State.setMem (s : State) (m : Memory) : State := { s with mem := m }

/-- the framebuffer replaced -/
def State.setFb (s : State) (f : Framebuffer) : State := { s with fb := f }

/-- `Result <- r` (R14). -/
def State.setResult (s : State) (r : HandlerResult) : State := { s with result := r }

/-- the error output replaced -/
def State.setErrors (s : State) (es : List ErrorRecord) : State := { s with errors := es }

/-- the presented framebuffers replaced -/
def State.setPresented (s : State) (fs : List Framebuffer) : State := { s with presented := fs }

/-- the inputs of the step in progress -/
def State.setInput (s : State) (inp : StepInput) : State := { s with input := inp }

/-- the interactions still to come -/
def State.setSchedule (s : State) (acts : List HostAct) : State := { s with schedule := acts }

/-- the number of free inputs drawn -/
def State.setDraws (s : State) (n : Nat) : State := { s with draws := n }

end Sys2Proof.Machine
end

