-- ==== Sys2Proof/Machine/Store.lean ====
section
/-! DEFINITION. The Addressable Store as data: the reset contents, lookup, update and the canonical form
(spec/20_memory.md R60, R68; spec/10_state.md R52). -/

namespace Sys2Proof.Machine

/-- The default font, glyphs 0–3 (R52; PRESUMED, log 4). -/
def fontGlyphs0 : List Byte :=
  [0xF0, 0x90, 0x90, 0x90, 0xF0] ++ [0x20, 0x60, 0x20, 0x20, 0x70] ++ [0xF0, 0x10, 0xF0, 0x80, 0xF0] ++
  [0xF0, 0x10, 0xF0, 0x10, 0xF0]

/-- The default font, glyphs 4–7. -/
def fontGlyphs4 : List Byte :=
  [0x90, 0x90, 0xF0, 0x10, 0x10] ++ [0xF0, 0x80, 0xF0, 0x10, 0xF0] ++ [0xF0, 0x80, 0xF0, 0x90, 0xF0] ++
  [0xF0, 0x10, 0x20, 0x40, 0x40]

/-- The default font, glyphs 8–B. -/
def fontGlyphs8 : List Byte :=
  [0xF0, 0x90, 0xF0, 0x90, 0xF0] ++ [0xF0, 0x90, 0xF0, 0x10, 0xF0] ++ [0xF0, 0x90, 0xF0, 0x90, 0x90] ++
  [0xE0, 0x90, 0xE0, 0x90, 0xE0]

/-- The default font, glyphs C–F. -/
def fontGlyphsC : List Byte :=
  [0xF0, 0x80, 0x80, 0x80, 0xF0] ++ [0xE0, 0x90, 0x90, 0x90, 0xE0] ++ [0xF0, 0x80, 0xF0, 0x80, 0xF0] ++
  [0xF0, 0x80, 0xF0, 0x80, 0x80]

/-- The default `FONT`, 80 bytes, glyph d at 5*d (R52; log 4). -/
def defaultFont : List Byte := fontGlyphs0 ++ fontGlyphs4 ++ fontGlyphs8 ++ fontGlyphsC

/-- What an address that the store does not list reads as: the default font at 0x000–0x04F and the simulator's default
fill 0x00 elsewhere (R52, D4, D5; log 4, log 5). -/
def unlisted (a : Nat) : Byte := defaultFont.getD a 0x00

/-- The byte the store holds at an address. -/
def Memory.read : Memory → Nat → Byte
  | [], a => unlisted a
  | (b, w) :: m, a => if a = b then w else Memory.read m a

/-- The store with an address no longer listed. -/
def Memory.forget (m : Memory) (a : Nat) : Memory := m.filter (fun c => c.1 != a)

/-- A cell put in its place in a rising list that does not list its address. -/
def Memory.place : Memory → Nat → Byte → Memory
  | [], a, x => [(a, x)]
  | (b, w) :: m, a, x => if a < b then (a, x) :: (b, w) :: m else (b, w) :: Memory.place m a x

/-- The store after `MEM[a] <- x`, in the canonical form: a cell that reads as an unlisted one is not listed. -/
def Memory.write (m : Memory) (a : Nat) (x : Byte) : Memory :=
  if x = unlisted a then m.forget a else (m.forget a).place a x

/-- Every listed address is at least `lo`, the addresses rise strictly and lie in the store, and no cell equals what its
address reads as unlisted. -/
def Memory.wfFrom : Nat → Memory → Bool
  | _, [] => true
  | lo, (a, x) :: m => decide (lo ≤ a) && decide (a < Config.storeSize) && (x != unlisted a) && Memory.wfFrom (a + 1) m

/-- The canonical form of the store. -/
def Memory.wf (m : Memory) : Bool := m.wfFrom 0

/-- The store whose byte at each address of 0x000–0xFFF is given by a function. -/
def Memory.ofFn (f : Nat → Byte) : Memory :=
  (List.range Config.storeSize).filterMap (fun a => if f a = unlisted a then none else some (a, f a))

end Sys2Proof.Machine
end

