-- ==== Sys2Proof/Machine/Ops.lean ====
section
/-! DEFINITION. The named operations over registers, store, stack and PC that every meaning is made of: the error report
(the core's only exceptional event, spec/60_exceptions.md R240–R243), `MemRead` and `MemWrite` (spec/20_memory.md R61, R62),
`Push` and `Pop` (spec/10_state.md R42, R43), `Skip` (spec/40_fetch_dispatch.md R127), fetch and advance (R121, R122). -/

namespace Sys2Proof.Machine

/-- `V[r]` (R10, R30). -/
def State.reg (s : State) (r : Reg) : Byte := s.v[r.toNat]'r.isLt

/-- The numeric code of an error record (R241). -/
def ErrorRecord.code : ErrorRecord → Nat
  | .addressing .read _ => 1
  | .addressing .write _ => 2
  | .stackOverflow _ => 3
  | .stackUnderflow _ => 4

/-- `report e`: appends the record to the error output and changes nothing else (R12, R128, R242). There is no trap entry
and no trap return on this core (R240, R245), so this is all an error does. -/
def State.report (s : State) (e : ErrorRecord) : State := s.setErrors (s.errors ++ [e])

/-! ## The store -/

/-- The address lies in the store (R60). -/
def inStore (a : Nat) : Bool := decide (a ≤ 0xFFF)

/-- The value `MemRead(a, 1)` returns: the byte, or 0x00 outside the store (R61). -/
def State.readByte (s : State) (a : Nat) : Byte := if inStore a then s.mem.read a else 0x00

/-- `MemRead(a, 1)`: the value, and the state with an addressing error reported when `a` is outside the store (R61). -/
def State.memRead (s : State) (a : Nat) : Byte × State :=
  (s.readByte a, if inStore a then s else s.report (.addressing .read a))

/-- `MemWrite(a, 1, x)`: outside the store it reports and changes nothing (R62). -/
def State.memWrite (s : State) (a : Nat) (x : Byte) : State :=
  if inStore a then s.setMem (s.mem.write a x) else s.report (.addressing .write a)

/-! ## The call stack -/

/-- `stack[j]`; an index above 15, which no legal SP gives, reads as 0. -/
def State.slot (s : State) (j : Int) : Word := (s.stack[j.toNat]?).getD 0

/-- `Push(w)`: false and a report when the stack is full (R42). -/
def State.push (s : State) (w : Word) : Bool × State :=
  if s.sp = 15 then (false, s.report (.stackOverflow s.pc))
  else (true, (s.setSp (s.sp + 1)).setSlot (s.sp + 1) w)

/-- `Pop()`: none and a report when the stack is empty; the popped slot keeps its value (R43). -/
def State.pop (s : State) : Option Word × State :=
  if s.sp = -1 then (none, s.report (.stackUnderflow s.pc))
  else (some (s.slot s.sp), s.setSp (s.sp - 1))

/-! ## The program counter -/

/-- `PC <- (PC + 2) mod 2^16`: the advance after the fetch (R122), and `Skip()` (R127). -/
def State.advance (s : State) : State := s.setPc (s.pc + 2)

/-- `if c: Skip()` (R127). -/
def State.skipIf (s : State) (c : Bool) : State := if c then s.advance else s

/-- `PC <- (PC - 2) mod 2^16`: the rewind of a waiting Fx0A (R224). -/
def State.rewind (s : State) : State := s.setPc (s.pc - 2)

/-- The fetch (R121): the byte at PC is read first and is the high byte, then the byte at PC + 1, an exact sum. -/
def State.fetch (s : State) : Word × State :=
  let hi := s.memRead s.pc.toNat
  let lo := hi.2.memRead (s.pc.toNat + 1)
  (wordOfBytes hi.1 lo.1, lo.2)

end Sys2Proof.Machine
end

