-- ==== Sys2Proof/Machine/Operands.lean ====
section
/-! DEFINITION. The operand forms: zero-extended immediates (spec/30_encoding.md R93), the one addressing mode I + k
(spec/20_memory.md R63; spec/43_index_memory.md), the glyph address, the decimal digits, and the step inputs an instruction
reads (spec/40_fetch_dispatch.md R129). -/

namespace Sys2Proof.Machine

/-- A 12-bit address or immediate as a 16-bit value (R93, R180). -/
def wordOfAddr (nnn : Addr12) : Word := nnn.setWidth 16

/-- A register's byte as a 16-bit value (R148, R181). -/
def wordOfByte (b : Byte) : Word := b.setWidth 16

/-- The effective address of the k-th byte, the exact sum I + k (R63). -/
def State.ea (s : State) (k : Nat) : Nat := s.i.toNat + k

/-- The address of the glyph of the low nibble of a byte (R182). -/
def glyphAddr (b : Byte) : Word := BitVec.ofNat 16 (5 * (b.toNat % 16))

/-- The hundreds digit (R183). -/
def hundreds (b : Byte) : Byte := BitVec.ofNat 8 (b.toNat / 100)

/-- The tens digit (R183). -/
def tens (b : Byte) : Byte := BitVec.ofNat 8 (b.toNat / 10 % 10)

/-- The ones digit (R183). -/
def ones (b : Byte) : Byte := BitVec.ofNat 8 (b.toNat % 10)

/-- The register whose index is `k` (R10). -/
def regOfNat (k : Nat) : Reg := BitVec.ofNat 4 k

/-- The column or row of a cell reached from a coordinate, each axis wrapping on its own (R201). -/
def wrapCol (cx : Byte) (col : Nat) : Fin 64 := Fin.ofNat 64 (cx.toNat + col)

/-- See `wrapCol`. -/
def wrapRow (cy : Byte) (row : Nat) : Fin 32 := Fin.ofNat 32 (cy.toNat + row)

/-- Bit `7 - col` of a sprite byte: the most significant bit is the leftmost column (R201). -/
def spriteBit (b : Byte) (col : Nat) : Bool := b.getLsbD (7 - col)

/-- `KeyHeld(k)` (R13, R129). -/
def keyHeld (inp : StepInput) (k : Key) : Bool := inp.keys[k.toNat]'k.isLt

/-- The key codes 0..15 in order. -/
def allKeys : List Key := (List.range 16).map (BitVec.ofNat 4)

/-- `HeldKey()`: none when no key is held, otherwise a held key of the collaborator's choice (R129, D16, D22): the
chosen key when it is held, else the lowest held one. -/
def heldKey (inp : StepInput) : Option Key :=
  if keyHeld inp inp.choice then some inp.choice else allKeys.find? (keyHeld inp)

/-- The answer of the key query of Ex9E and ExA1 for a byte: the key state for 0..15, the draw `KeyOutOfRange` above
(R220, D15). -/
def keyAnswer (inp : StepInput) (b : Byte) : Bool :=
  if b.toNat ≤ 15 then keyHeld inp (BitVec.ofNat 4 b.toNat) else inp.keyOutOfRange

end Sys2Proof.Machine
end

