-- ==== Sys2Proof/Machine/Flags.lean ====
section
/-! DEFINITION. The flag computations. VF is the only flag (spec/10_state.md R31, R32); each is the rule of its
instruction (spec/42_alu.md R166–R170). -/

namespace Sys2Proof.Machine

/-- The byte a flag is stored as: 1 or 0. -/
def flagByte (f : Bool) : Byte := if f then 1 else 0

/-- The carry out of `a + b`: the 9-bit sum is above 255 (R166). -/
def carryOut (a b : Byte) : Bool := decide (a.toNat + b.toNat > 255)

/-- No borrow in `a - b` (R167, R169). -/
def noBorrow (a b : Byte) : Bool := decide (a.toNat ≥ b.toNat)

/-- The bit shifted out to the right, the least significant (R168). -/
def lsbOut (a : Byte) : Bool := a.getLsbD 0

/-- The bit shifted out to the left, the most significant (R170). -/
def msbOut (a : Byte) : Bool := a.getLsbD 7

/-- `VF <- f`. -/
def State.setFlag (s : State) (f : Bool) : State := s.setReg VF (flagByte f)

/-- `V[x]` is written first and VF last, so with x = F the flag is what VF holds (R31, D12). -/
def State.setWithFlag (s : State) (x : Reg) (b : Byte) (f : Bool) : State := (s.setReg x b).setFlag f

end Sys2Proof.Machine
end

