-- ==== Sys2Proof/Machine/Alu.lean ====
section
/-! DEFINITION. Register loads, arithmetic, logic and the random byte (spec/42_alu.md). Operands are read before any write
(D12); arithmetic wraps to 8 bits (R173). -/

namespace Sys2Proof.Machine

/-- LD Vx, kk (R160). -/
def execLdImm (x : Reg) (kk : Byte) (s : State) : Host.Outcome State Fault Refusal := .next (s.setReg x kk)

/-- ADD Vx, kk: no flag (R161). -/
def execAddImm (x : Reg) (kk : Byte) (s : State) : Host.Outcome State Fault Refusal := .next (s.setReg x (s.reg x + kk))

/-- LD Vx, Vy: the register move when MOVE_8XY0, else a no-op (R162, D2). -/
def execLdReg (x y : Reg) (s : State) : Host.Outcome State Fault Refusal :=
  .next (if s.move8xy0 then s.setReg x (s.reg y) else s)

/-- OR Vx, Vy (R163). -/
def execOrReg (x y : Reg) (s : State) : Host.Outcome State Fault Refusal := .next (s.setReg x (s.reg x ||| s.reg y))

/-- AND Vx, Vy (R164). -/
def execAndReg (x y : Reg) (s : State) : Host.Outcome State Fault Refusal := .next (s.setReg x (s.reg x &&& s.reg y))

/-- XOR Vx, Vy (R165). -/
def execXorReg (x y : Reg) (s : State) : Host.Outcome State Fault Refusal := .next (s.setReg x (s.reg x ^^^ s.reg y))

/-- ADD Vx, Vy: VF is the carry (R166). -/
def execAddReg (x y : Reg) (s : State) : Host.Outcome State Fault Refusal :=
  .next (s.setWithFlag x (s.reg x + s.reg y) (carryOut (s.reg x) (s.reg y)))

/-- SUB Vx, Vy: VF is 1 when there is no borrow (R167). -/
def execSubReg (x y : Reg) (s : State) : Host.Outcome State Fault Refusal :=
  .next (s.setWithFlag x (s.reg x - s.reg y) (noBorrow (s.reg x) (s.reg y)))

/-- SHR Vx: the operand is Vx, y is ignored; VF is the old bit 0 (R168). -/
def execShr (x _y : Reg) (s : State) : Host.Outcome State Fault Refusal :=
  .next (s.setWithFlag x (s.reg x >>> 1) (lsbOut (s.reg x)))

/-- SUBN Vx, Vy: Vy − Vx, VF is 1 when there is no borrow (R169). -/
def execSubnReg (x y : Reg) (s : State) : Host.Outcome State Fault Refusal :=
  .next (s.setWithFlag x (s.reg y - s.reg x) (noBorrow (s.reg y) (s.reg x)))

/-- SHL Vx: the operand is Vx, y is ignored; VF is the old bit 7 (R170). -/
def execShl (x _y : Reg) (s : State) : Host.Outcome State Fault Refusal :=
  .next (s.setWithFlag x (s.reg x <<< 1) (msbOut (s.reg x)))

/-- The no-op words of family 0x8 (R171). -/
def execNop8 (_x _y : Reg) (_n : Nibble) (s : State) : Host.Outcome State Fault Refusal := .next s

/-- RND Vx, kk: the step's random byte, masked (R172, R129). -/
def execRnd (x : Reg) (kk : Byte) (s : State) : Host.Outcome State Fault Refusal :=
  .next (s.setReg x (s.input.rand &&& kk))

end Sys2Proof.Machine
end

