-- ==== Sys2Proof/Machine/Control.lean ====
section
/-! DEFINITION. Control flow (spec/41_control_flow.md). Every meaning runs after the fetch and the advance, so PC already
holds the fetch address + 2 (spec/40_fetch_dispatch.md R123). -/

namespace Sys2Proof.Machine

/-- SYS nnn: the legacy system call, a no-op (R140). -/
def execSys (_nnn : Addr12) (s : State) : Host.Outcome State Fault Refusal := .next s

/-- RET: PC takes the popped value; on underflow it stays (R141, C3). -/
def execRet (s : State) : Host.Outcome State Fault Refusal :=
  let r := s.pop
  .next (match r.1 with
    | some t => r.2.setPc t
    | none => r.2)

/-- JP nnn (R142). -/
def execJp (nnn : Addr12) (s : State) : Host.Outcome State Fault Refusal := .next (s.setPc (wordOfAddr nnn))

/-- CALL nnn: pushes PC, the address after the call; on overflow it does not jump (R143, C3). -/
def execCall (nnn : Addr12) (s : State) : Host.Outcome State Fault Refusal :=
  let r := s.push s.pc
  .next (if r.1 then r.2.setPc (wordOfAddr nnn) else r.2)

/-- SE Vx, kk (R144). -/
def execSeImm (x : Reg) (kk : Byte) (s : State) : Host.Outcome State Fault Refusal :=
  .next (s.skipIf (s.reg x == kk))

/-- SNE Vx, kk (R145). -/
def execSneImm (x : Reg) (kk : Byte) (s : State) : Host.Outcome State Fault Refusal :=
  .next (s.skipIf (s.reg x != kk))

/-- SE Vx, Vy; the low nibble is ignored (R146, R100). -/
def execSeReg (x y : Reg) (_n : Nibble) (s : State) : Host.Outcome State Fault Refusal :=
  .next (s.skipIf (s.reg x == s.reg y))

/-- SNE Vx, Vy; the low nibble is ignored (R147, R100). -/
def execSneReg (x y : Reg) (_n : Nibble) (s : State) : Host.Outcome State Fault Refusal :=
  .next (s.skipIf (s.reg x != s.reg y))

/-- JP V0, nnn: the sum is kept whole, not masked to 12 bits (R148, D7). -/
def execJpV0 (nnn : Addr12) (s : State) : Host.Outcome State Fault Refusal :=
  .next (s.setPc (wordOfByte (s.reg 0) + wordOfAddr nnn))

end Sys2Proof.Machine
end

