-- ==== Sys2Proof/Machine/Display.lean ====
section
/-! DEFINITION. The display instructions (spec/44_display.md R200, R201). -/

namespace Sys2Proof.Machine

/-- `FB[r][c]` (R45). -/
def pixel (f : Framebuffer) (r : Fin 32) (c : Fin 64) : Bool := (f[r])[c]

/-- `FB[r][c] <- b`. -/
def setPixel (f : Framebuffer) (r : Fin 32) (c : Fin 64) (b : Bool) : Framebuffer := f.set r ((f[r]).set c b)

/-- The framebuffer with every cell off (R53, R200). -/
def blankFb : Framebuffer := Vector.replicate 32 (Vector.replicate 64 false)

/-- One sprite bit at one cell: a 1 bit toggles the cell, and sets the collision when the cell was on (R201). The pair is
the framebuffer and whether a collision has been seen. -/
def drawBit (p : Framebuffer × Bool) (bit : Bool) (r : Fin 32) (c : Fin 64) : Framebuffer × Bool :=
  if bit then (setPixel p.1 r c (!pixel p.1 r c), p.2 || pixel p.1 r c) else p

/-- The first `n` columns of one sprite row, leftmost first (R201). -/
def drawCols (p : Framebuffer × Bool) (b cx : Byte) (r : Fin 32) : Nat → Framebuffer × Bool
  | 0 => p
  | n + 1 => drawBit (drawCols p b cx r n) (spriteBit b n) r (wrapCol cx n)

/-- The state with the framebuffer replaced, and VF set to 1 when the row collided. -/
def State.afterRow (s : State) (p : Framebuffer × Bool) : State :=
  if p.2 then (s.setFb p.1).setReg VF 1 else s.setFb p.1

/-- One sprite row: its byte is read at I + row, then its 8 bits are drawn (R201). -/
def State.drawRow (s : State) (cx cy : Byte) (row : Nat) : State :=
  let m := s.memRead (s.ea row)
  m.2.afterRow (drawCols (m.2.fb, false) m.1 cx (wrapRow cy row) 8)

/-- The first `n` sprite rows, top first (R201). -/
def State.drawRows (s : State) (cx cy : Byte) : Nat → State
  | 0 => s
  | n + 1 => (s.drawRows cx cy n).drawRow cx cy n

/-- CLS (R200). -/
def execCls (s : State) : Host.Outcome State Fault Refusal := .next (s.setFb blankFb)

/-- DRW Vx, Vy, n: the coordinates are read before VF is cleared (R201, D21). -/
def execDrw (x y : Reg) (n : Nibble) (s : State) : Host.Outcome State Fault Refusal :=
  .next ((s.setReg VF 0).drawRows (s.reg x) (s.reg y) n.toNat)

end Sys2Proof.Machine
end

