-- ==== Sys2Proof/Machine/Index.lean ====
section
/-! DEFINITION. The index register and the transfers between registers and store (spec/43_index_memory.md). No
instruction here changes I but Annn, Fx1E and Fx29 (D10). -/

namespace Sys2Proof.Machine

/-- `V[0..n-1]` stored at I, I + 1, … in increasing order, each byte checked on its own (R184, R66). -/
def State.storeRegs (s : State) : Nat → State
  | 0 => s
  | n + 1 => (s.storeRegs n).memWrite (s.ea n) (s.reg (regOfNat n))

/-- `V[0..n-1]` loaded from I, I + 1, … in increasing order, each byte checked on its own (R185, R66). -/
def State.loadRegs (s : State) : Nat → State
  | 0 => s
  | n + 1 =>
    let r := (s.loadRegs n).memRead (s.ea n)
    r.2.setReg (regOfNat n) r.1

/-- LD I, nnn (R180). -/
def execLdI (nnn : Addr12) (s : State) : Host.Outcome State Fault Refusal := .next (s.setI (wordOfAddr nnn))

/-- ADD I, Vx: modulo 2^16, no flag (R181, D8). -/
def execAddI (x : Reg) (s : State) : Host.Outcome State Fault Refusal := .next (s.setI (s.i + wordOfByte (s.reg x)))

/-- LD F, Vx: the glyph of Vx's low nibble (R182). -/
def execLdF (x : Reg) (s : State) : Host.Outcome State Fault Refusal := .next (s.setI (glyphAddr (s.reg x)))

/-- LD B, Vx: the three decimal digits, hundreds first (R183, D11). -/
def execLdB (x : Reg) (s : State) : Host.Outcome State Fault Refusal :=
  let b := s.reg x
  .next (((s.memWrite (s.ea 0) (hundreds b)).memWrite (s.ea 1) (tens b)).memWrite (s.ea 2) (ones b))

/-- LD [I], Vx: V0..Vx inclusive (R184). -/
def execStRegs (x : Reg) (s : State) : Host.Outcome State Fault Refusal := .next (s.storeRegs (x.toNat + 1))

/-- LD Vx, [I]: V0..Vx inclusive (R185). -/
def execLdRegs (x : Reg) (s : State) : Host.Outcome State Fault Refusal := .next (s.loadRegs (x.toNat + 1))

end Sys2Proof.Machine
end

