-- ==== Sys2Proof/Machine/Keys.lean ====
section
/-! DEFINITION. Key skips, key wait, timer access and the no-ops of families 0xE and 0xF (spec/45_keys_timers.md). -/

namespace Sys2Proof.Machine

/-- SKP Vx: skips when the key named by Vx is held (R220). -/
def execSkp (x : Reg) (s : State) : Host.Outcome State Fault Refusal :=
  .next (s.skipIf (keyAnswer s.input (s.reg x)))

/-- SKNP Vx: skips when it is not held (R221). -/
def execSknp (x : Reg) (s : State) : Host.Outcome State Fault Refusal :=
  .next (s.skipIf (!keyAnswer s.input (s.reg x)))

/-- The no-op words of family 0xE (R222). -/
def execNopE (_x : Reg) (_kk : Byte) (s : State) : Host.Outcome State Fault Refusal := .next s

/-- LD Vx, DT (R223). -/
def execLdVxDt (x : Reg) (s : State) : Host.Outcome State Fault Refusal := .next (s.setReg x s.dt)

/-- LD Vx, K: a held key's code goes to Vx; with no key held PC goes back and the result is Retry (R224). -/
def execLdVxK (x : Reg) (s : State) : Host.Outcome State Fault Refusal :=
  .next (match heldKey s.input with
    | some k => s.setReg x (k.setWidth 8)
    | none => s.rewind.setResult .retry)

/-- LD DT, Vx (R225). -/
def execLdDtVx (x : Reg) (s : State) : Host.Outcome State Fault Refusal := .next (s.setDt (s.reg x))

/-- LD ST, Vx (R226). -/
def execLdStVx (x : Reg) (s : State) : Host.Outcome State Fault Refusal := .next (s.setSt (s.reg x))

/-- The no-op words of family 0xF (R227). -/
def execNopF (_x : Reg) (_kk : Byte) (s : State) : Host.Outcome State Fault Refusal := .next s

end Sys2Proof.Machine
end

