-- ==== Sys2Proof/Machine/Interface.lean ====
section
/-! DEFINITION. The boundary of the core with its host (spec/60_exceptions.md R250–R258): the next interaction, the inputs
of a step, the frame tick of the timer countdown unit, and the launch that resets the machine and loads a program. -/

namespace Sys2Proof.Machine

/-- The interaction that comes next, and the state in which it takes place. With nothing scheduled it is a `step()` whose
inputs are free (R129, R251; log 2, log 3). A quit stays: no further interaction follows it (R257, R258). -/
def State.takeAct (s : State) : HostAct × State :=
  match s.schedule with
  | .cpu inp :: rest => (.cpu inp, s.setSchedule rest)
  | .tick :: rest => (.tick, s.setSchedule rest)
  | .quit :: _ => (.quit, s)
  | [] => (.cpu (Config.freeInput s.draws), s.setDraws (s.draws + 1))

/-- The start of a step: its inputs stand fixed, and its result is Completed unless the handler says otherwise
(R125, R129). -/
def State.beginStep (s : State) (inp : StepInput) : State := (s.setInput inp).setResult .completed

/-- A timer counted down by 1 with a floor of 0 (R38, R250). -/
def countDown (b : Byte) : Byte := if b.toNat > 0 then b - 1 else b

/-- `frameTick()`: both timers count down, then the framebuffer is presented (R250, R255). -/
def State.frameTick (s : State) : State :=
  let t := (s.setDt (countDown s.dt)).setSt (countDown s.st)
  t.setPresented (t.presented ++ [t.fb])

/-- The byte the store holds at an address after reset and program load: the font, the image at 0x200, and the fill
everywhere else (R52, R68, R256). -/
def launchByte (font : Vector Byte 80) (fill : Nat → Byte) (image : List Byte) (a : Nat) : Byte :=
  if a < Config.fontSize then font.toList.getD a 0x00
  else if a < Config.loadAddress then fill a
  else image.getD (a - Config.loadAddress) (fill a)

/-- Reset with a program loaded from outside (R52, R256, R270): `font`, `fill` and `move` are the spec's parameters FONT,
INIT_FILL and MOVE_8XY0 (R8), `acts` the host's interactions to come. An image above 0xE00 bytes is refused (D24). -/
def launch (font : Vector Byte 80) (fill : Nat → Byte) (move : Bool) (image : List Byte) (acts : List HostAct) :
    Host.Outcome State Fault Refusal :=
  if image.length ≤ Config.maxImage then
    .next { State.reset with
      mem := Memory.ofFn (launchByte font fill image), schedule := acts, move8xy0 := move }
  else .refused .imageTooLong

/-- The interaction is a `step()`. -/
def HostAct.isCpu : HostAct → Bool
  | .cpu _ => true
  | .tick => false
  | .quit => false

/-- The address where an instruction word can stand so that the next fetch reads it whole: PC, or the load address when
PC points outside the store. -/
def State.placeAddr (s : State) : Word := if s.pc.toNat < 0xFFF then s.pc else 0x200#16

/-- The state with a word stored where the next fetch reads it, high byte first (R64), and with the interactions before
the next `step()` dropped from the schedule, so that the very next step runs that word. -/
def State.placeWord (s : State) (w : Word) : State :=
  let a := s.placeAddr.toNat
  ((s.setPc s.placeAddr).setMem ((s.mem.write a (hiByte w)).write (a + 1) (loByte w))).setSchedule
    (s.schedule.dropWhile (fun act => !act.isCpu))

end Sys2Proof.Machine
end

