-- ==== Sys2Proof/Machine/Cycle.lean ====
section
/-! DEFINITION. The core's own `step()` (spec/40_fetch_dispatch.md R125) and one interaction of the host with the core
(spec/60_exceptions.md R258): a `step()`, a frame tick (R250) or a quit (R257). -/

namespace Sys2Proof.Machine

/-- `step()` of R125 with its inputs: fetch, advance, decode and dispatch. -/
def cpuStep (inp : StepInput) (s : State) : Host.Outcome State Fault Refusal :=
  let f := (s.beginStep inp).fetch
  exec (decode f.1) f.2.advance

/-- The next interaction of the host (R258). -/
def State.interact (s : State) : Host.Outcome State Fault Refusal :=
  match s.takeAct with
  | (.cpu inp, t) => cpuStep inp t
  | (.tick, t) => .next t.frameTick
  | (.quit, t) => .next t

end Sys2Proof.Machine
end

