-- ==== Sys2Proof/Machine/Step.lean ====
section
/-! DEFINITION. One step of the machine is one interaction of the host with the core (spec/60_exceptions.md R258; log 2). -/

namespace Sys2Proof.Machine

/-- The next interaction of the host (R258). -/
def step (s : State) : Host.Outcome State Fault Refusal := s.interact

/-- `s` with the instruction word of an opcode-table row stored where `step` fetches its next instruction; the word's bits
above `nbits` are 0. -/
def State.withFetchWord (s : State) (nbits w : Nat) : State := s.placeWord (BitVec.ofNat 16 (w % 2 ^ nbits))

end Sys2Proof.Machine
end

