-- ==== Sys2Proof/Safety.lean ====
section
/-! DEFINITION. The terms the claims are stated in: the parts of the state and what may change them, the invariant, the
sprite of a draw as a set of cells, and short runs of instructions. -/

namespace Sys2Proof.Machine

/-- The parts of the state a claim speaks of: the core's tuple (spec/10_state.md R47), the three outputs, and the model's
own fields. -/
inductive Part where
  | reg (r : Reg)
  | index
  | pc
  | dt
  | st
  | sp
  | slot (j : Fin 16)
  | byte (a : Nat)
  | pixel (r : Fin 32) (c : Fin 64)
  | result
  | errors
  | presented
  | input
  | schedule
  | draws
  | move8xy0
  deriving DecidableEq, Repr

/-- The part is the same in both states. A byte of memory is compared through the read of one byte. -/
def SamePart (s t : State) : Part → Prop
  | .reg r => t.reg r = s.reg r
  | .index => t.i = s.i
  | .pc => t.pc = s.pc
  | .dt => t.dt = s.dt
  | .st => t.st = s.st
  | .sp => t.sp = s.sp
  | .slot j => t.stack[j] = s.stack[j]
  | .byte a => t.readByte a = s.readByte a
  | .pixel r c => pixel t.fb r c = pixel s.fb r c
  | .result => t.result = s.result
  | .errors => t.errors = s.errors
  | .presented => t.presented = s.presented
  | .input => t.input = s.input
  | .schedule => t.schedule = s.schedule
  | .draws => t.draws = s.draws
  | .move8xy0 => t.move8xy0 = s.move8xy0

/-- Every part outside `may` is the same in both states: the frame of an instruction. -/
def ChangesOnly (s t : State) (may : Part → Prop) : Prop := ∀ p : Part, ¬ may p → SamePart s t p

/-- What the handler of an instruction may change, read from the rules of files 41–45 (spec/40_fetch_dispatch.md R130: "A
register or memory cell a rule does not write keeps its value"). PC stands here only where the HANDLER writes it. -/
def mayChange (s : State) : Instr → Part → Prop
  | .cls, p => ∃ r c, p = .pixel r c
  | .ret, p => p = .pc ∨ p = .sp ∨ p = .errors
  | .sys _, _ => False
  | .jp _, p => p = .pc
  | .call _, p => p = .pc ∨ p = .sp ∨ p = .errors ∨ ∃ j : Fin 16, j.val = (s.sp + 1).toNat ∧ p = .slot j
  | .seImm _ _, p => p = .pc
  | .sneImm _ _, p => p = .pc
  | .seReg _ _ _, p => p = .pc
  | .ldImm x _, p => p = .reg x
  | .addImm x _, p => p = .reg x
  | .ldReg x _, p => p = .reg x
  | .orReg x _, p => p = .reg x
  | .andReg x _, p => p = .reg x
  | .xorReg x _, p => p = .reg x
  | .addReg x _, p => p = .reg x ∨ p = .reg VF
  | .subReg x _, p => p = .reg x ∨ p = .reg VF
  | .shr x _, p => p = .reg x ∨ p = .reg VF
  | .subnReg x _, p => p = .reg x ∨ p = .reg VF
  | .shl x _, p => p = .reg x ∨ p = .reg VF
  | .nop8 _ _ _, _ => False
  | .sneReg _ _ _, p => p = .pc
  | .ldI _, p => p = .index
  | .jpV0 _, p => p = .pc
  | .rnd x _, p => p = .reg x
  | .drw _ _ _, p => p = .reg VF ∨ p = .errors ∨ ∃ r c, p = .pixel r c
  | .skp _, p => p = .pc
  | .sknp _, p => p = .pc
  | .nopE _ _, _ => False
  | .ldVxDt x, p => p = .reg x
  | .ldVxK x, p => p = .reg x ∨ p = .pc ∨ p = .result
  | .ldDtVx _, p => p = .dt
  | .ldStVx _, p => p = .st
  | .addI _, p => p = .index
  | .ldF _, p => p = .index
  | .ldB _, p => p = .errors ∨ ∃ k, k < 3 ∧ p = .byte (s.i.toNat + k)
  | .stRegs x, p => p = .errors ∨ ∃ k, k ≤ x.toNat ∧ p = .byte (s.i.toNat + k)
  | .ldRegs x, p => p = .errors ∨ ∃ r : Reg, r.toNat ≤ x.toNat ∧ p = .reg r
  | .nopF _ _, _ => False

/-- The word the next fetch reads: the byte at PC, then the byte at PC + 1 (R91, R121). -/
def State.nextWord (s : State) : Word := wordOfBytes (s.readByte s.pc.toNat) (s.readByte (s.pc.toNat + 1))

/-- The next interaction is a `step()`, scheduled or with free inputs, and the word it fetches decodes to `i`. -/
def State.Runs (s : State) (i : Instr) : Prop :=
  (s.schedule = [] ∨ ∃ inp rest, s.schedule = .cpu inp :: rest) ∧ decode s.nextWord = i

/-- The invariant of the machine: the store is in its canonical form, SP lies in −1..15 (R41), and after a Retry, PC
points at an Fx0A instruction (R48). -/
def State.Inv (s : State) : Prop :=
  s.mem.wf = true ∧ (-1 ≤ s.sp ∧ s.sp ≤ 15) ∧ (s.result = .retry → ∃ x, decode s.nextWord = .ldVxK x)

/-- The sprite of a draw covers the cell (r, c) with a 1 bit: some row and column of it, each axis wrapping on its own,
reaches the cell (R201). A row outside the store reads as 0x00. -/
def spriteCovers (s : State) (x y : Reg) (n : Nibble) (r : Fin 32) (c : Fin 64) : Bool :=
  (List.range n.toNat).any fun row => (List.range 8).any fun col =>
    (s.readByte (s.i.toNat + row)).getLsbD (7 - col)
      && decide (((s.reg y).toNat + row) % 32 = r.val) && decide (((s.reg x).toNat + col) % 64 = c.val)

/-- The addressing errors of the accesses at I, I + 1, …, I + n − 1, in that order (R66, R243). -/
def accessErrors (kind : AccessKind) (s : State) (n : Nat) : List ErrorRecord :=
  (((List.range n).map (s.i.toNat + ·)).filter (fun a => 0xFFF < a)).map (.addressing kind)

/-- Instructions one after another, as handlers. -/
def runInstrs : List Instr → State → Host.Outcome State Fault Refusal
  | [], s => .next s
  | i :: is, s =>
    match exec i s with
    | .next t => runInstrs is t
    | .fault r => .fault r
    | .refused r => .refused r

/-- The number of frame ticks in a schedule. -/
def tickCount : List HostAct → Nat
  | [] => 0
  | .tick :: acts => tickCount acts + 1
  | .cpu _ :: acts => tickCount acts
  | .quit :: acts => tickCount acts

/-- The interaction is a frame tick, or a step during which no key is held. -/
def HostAct.waits : HostAct → Prop
  | .tick => True
  | .cpu inp => ∀ k, keyHeld inp k = false
  | .quit => False

end Sys2Proof.Machine
end

