-- ==== Sys2Proof/Certificates/Slice0/Obligations.lean ====
section
/-! DEFINITION. The statements for the provers. A statement about an instruction speaks of `exec`, its handler, which runs
after the fetch and the advance, so PC in `s` is the fetch address + 2 (spec/40_fetch_dispatch.md R123);
`Obligations.StepRunsTheDecodedInstruction` lifts it to a step. Each conclusion is that exec ANSWERS a next state, with what
that state holds and what it leaves unchanged (`ChangesOnly`). Where a clause rests on a decision of the spec (a row D<n> of
spec/92_eei_decisions.md) or on a choice of the model (a log entry), the docstring names it. -/

open Sys2Proof Sys2Proof.Machine

/-! ## Reset and launch -/

/-- R49: "all registers zeroed": V0–VF, I, DT, ST. R53: every framebuffer cell is off at reset. -/
def Obligations.ResetZeroesRegistersAndFramebuffer : Prop :=
  (∀ r, State.reset.reg r = 0) ∧ State.reset.i = 0 ∧ State.reset.dt = 0 ∧ State.reset.st = 0 ∧
  ∀ r c, pixel State.reset.fb r c = false

/-- PC = 0x200 (the spec's decision D1), the empty stack SP = −1 with every slot 0 (R51). The last clause, that the error output
of R242 starts empty, is the model's choice (log 6); the other values of the model's own fields at reset (log 2, 3, 7, and the
rest of log 6) are not stated. -/
def Obligations.ResetEntersTheProgramWithAnEmptyStack : Prop :=
  State.reset.pc = 0x200#16 ∧ State.reset.sp = -1 ∧ (∀ j : Fin 16, State.reset.stack[j] = 0) ∧ State.reset.errors = []

/-- The default font table of R52 (from general knowledge, G1; log 4), glyph d at 5*d, and the model's choice 0x00 for the
INIT_FILL of State.reset (D5's simulator default; log 5). -/
def Obligations.ResetStoreHoldsTheDefaultFont : Prop :=
  (∀ a : Fin 80, State.reset.readByte a =
    ([[0xF0, 0x90, 0x90, 0x90, 0xF0], [0x20, 0x60, 0x20, 0x20, 0x70], [0xF0, 0x10, 0xF0, 0x80, 0xF0],
      [0xF0, 0x10, 0xF0, 0x10, 0xF0], [0x90, 0x90, 0xF0, 0x10, 0x10], [0xF0, 0x80, 0xF0, 0x10, 0xF0],
      [0xF0, 0x80, 0xF0, 0x90, 0xF0], [0xF0, 0x10, 0x20, 0x40, 0x40], [0xF0, 0x90, 0xF0, 0x90, 0xF0],
      [0xF0, 0x90, 0xF0, 0x10, 0xF0], [0xF0, 0x90, 0xF0, 0x90, 0x90], [0xE0, 0x90, 0xE0, 0x90, 0xE0],
      [0xF0, 0x80, 0x80, 0x80, 0xF0], [0xE0, 0x90, 0x90, 0x90, 0xE0], [0xF0, 0x80, 0xF0, 0x80, 0xF0],
      [0xF0, 0x80, 0xF0, 0x80, 0x80]] : List (List Byte)).flatten.getD a 0) ∧
  ∀ a : Nat, 80 ≤ a → State.reset.readByte a = 0

/-- R52, R68, R256, R270 with the parameters FONT, INIT_FILL and MOVE_8XY0 (D2, D4, D5): a launch with an image of at most
0xE00 bytes gives the reset state but for the store, the schedule and the parameter; a longer image is refused (D24). -/
def Obligations.LaunchPlacesFontImageAndFill : Prop :=
  ∀ (font : Vector Byte 80) (fill : Nat → Byte) (move : Bool) (image : List Byte) (acts : List HostAct),
    (image.length ≤ 0xE00 → ∃ m : Memory,
      launch font fill move image acts = .next { State.reset with mem := m, schedule := acts, move8xy0 := move } ∧
      m.wf = true ∧
      (∀ a : Fin 80, m.read a = font[a]) ∧
      (∀ a, 80 ≤ a → a < 0x200 → m.read a = fill a) ∧
      (∀ k (h : k < image.length), m.read (0x200 + k) = image[k]) ∧
      (∀ a, 0x200 + image.length ≤ a → a ≤ 0xFFF → m.read a = fill a)) ∧
    (0xE00 < image.length → launch font fill move image acts = .refused .imageTooLong)

/-! ## The store -/

/-- R61 and R62 whole: inside 0x000–0xFFF a read returns the byte and reports nothing, a write stores it and changes no other
byte; outside, a read reports and returns 0x00, a write reports and changes nothing. A byte
written is the byte read back. -/
def Obligations.StoreReadsBackWhatWasWritten : Prop :=
  ∀ (s : State) (a : Nat) (x : Byte),
    (a ≤ 0xFFF → s.memRead a = (s.mem.read a, s) ∧
      (s.memWrite a x).readByte a = x ∧ ChangesOnly s (s.memWrite a x) (fun p => p = .byte a)) ∧
    (0xFFF < a → s.memRead a = (0x00, { s with errors := s.errors ++ [.addressing .read a] }) ∧
      s.memWrite a x = { s with errors := s.errors ++ [.addressing .write a] })

/-- R73 (derived there from R60, R70, R121): the bytes Fx55 stores are the word that the next fetch of their address reads. -/
def Obligations.StoredRegistersAreFetchedAsAnInstruction : Prop :=
  ∀ (s : State) (x : Reg) (k : Nat), k < x.toNat → s.i.toNat + k + 1 ≤ 0xFFF →
    ∃ t, exec (.stRegs x) s = .next t ∧
      ({ t with pc := BitVec.ofNat 16 (s.i.toNat + k) }).fetch.1 =
        wordOfBytes (s.reg (BitVec.ofNat 4 k)) (s.reg (BitVec.ofNat 4 (k + 1)))

/-! ## Encoding -/

/-- No bit of an encoding is dropped: a well-formed instruction is what its word decodes to, for every value of every operand
(R94–R103). -/
def Obligations.DecodeOfEncodeIsTheInstruction : Prop :=
  ∀ i : Instr, i.wf = true → decode (encode i) = i

/-- R103 (derived there): every word is exactly one instruction, a well-formed one, and no two words are the same one. -/
def Obligations.EveryWordIsOneWellFormedInstruction : Prop :=
  ∀ w : Word, (decode w).wf = true ∧ encode (decode w) = w

/-- spec/INDEX.md, "Every 16-bit word selects exactly one row": a word selects the row of the instruction it decodes to; where
that row has priority 1, no priority-0 row matches; where it has priority 0, it is the only priority-0 row that matches. -/
def Obligations.DecodeSelectsTheOpcodeTableRow : Prop :=
  ∀ w : Word, (rowOf (decode w)).selects w = true ∧
    (rowOf (decode w) ∈ priorityRows ∨ rowOf (decode w) ∈ fallbackRows) ∧
    (rowOf (decode w) ∈ fallbackRows → ∀ r ∈ priorityRows, r.selects w = false) ∧
    (rowOf (decode w) ∈ priorityRows → ∀ r ∈ priorityRows, r.selects w = true → r = rowOf (decode w))

/-- Words that the spec writes out with their instruction (files 41–45 and 95_test_vectors.md). -/
def Obligations.SpecWordsDecodeToTheirInstruction : Prop :=
  decode 0x00E0 = .cls ∧ decode 0x00EE = .ret ∧ decode 0x0123 = .sys 0x123 ∧ decode 0x1234 = .jp 0x234 ∧
  decode 0x2210 = .call 0x210 ∧ decode 0x3211 = .seImm 2 0x11 ∧ decode 0x6005 = .ldImm 0 0x05 ∧
  decode 0x8014 = .addReg 0 1 ∧ decode 0x8018 = .nop8 0 1 8 ∧ decode 0x9010 = .sneReg 0 1 0 ∧
  decode 0xA300 = .ldI 0x300 ∧ decode 0xBFFF = .jpV0 0xFFF ∧ decode 0xC30F = .rnd 3 0x0F ∧
  decode 0xDAB5 = .drw 0xA 0xB 5 ∧ decode 0xE59E = .skp 5 ∧ decode 0xE5A1 = .sknp 5 ∧
  decode 0xF30A = .ldVxK 3 ∧ decode 0xF155 = .stRegs 1 ∧ decode 0xF265 = .ldRegs 2 ∧ decode 0xF085 = .nopF 0 0x85

/-- R91 whole: the fetched word is `(high << 8) | low` of the bytes at PC and PC + 1. -/
def Obligations.FetchAssemblesTheWordHighByteFirst : Prop :=
  ∀ s : State, s.fetch.1 =
    ((s.memRead s.pc.toNat).1.setWidth 16 <<< 8) ||| (s.memRead (s.pc.toNat + 1)).1.setWidth 16

/-- The no-op space of R102 (derived there from R96–R99, R101) written in the fields of the word, with 8xy0 when MOVE_8XY0 is
false (D2): each such word leaves the whole state unchanged. -/
def Obligations.NoOpWordsChangeNothing : Prop :=
  ∀ (w : Word) (s : State),
    (famOf w = 0x0#4 ∧ nnnOf w ≠ 0x0E0#12 ∧ nnnOf w ≠ 0x0EE#12) ∨
    (famOf w = 0x8#4 ∧ nOf w ∈ [0x8#4, 0x9#4, 0xA#4, 0xB#4, 0xC#4, 0xD#4, 0xF#4]) ∨
    (famOf w = 0x8#4 ∧ nOf w = 0x0#4 ∧ s.move8xy0 = false) ∨
    (famOf w = 0xE#4 ∧ kkOf w ≠ 0x9E#8 ∧ kkOf w ≠ 0xA1#8) ∨
    (famOf w = 0xF#4 ∧ kkOf w ∉ [0x07#8, 0x0A#8, 0x15#8, 0x18#8, 0x1E#8, 0x29#8, 0x33#8, 0x55#8, 0x65#8]) →
    exec (decode w) s = .next s

/-! ## The step -/

/-- R125 (derived there) inside the store: a step whose inputs are scheduled runs the instruction the bytes at PC decode to,
with PC already advanced, the inputs standing and the result Completed. With nothing scheduled the inputs are free (the model's
schedule and draws: log 2, log 3); the statement holds whatever they are. -/
def Obligations.StepRunsTheDecodedInstruction : Prop :=
  ∀ (s : State) (i : Instr), s.pc.toNat < 0xFFF → decode s.nextWord = i →
    (∀ inp rest, s.schedule = .cpu inp :: rest →
      step s = exec i { s with pc := s.pc + 2, input := inp, result := .completed, schedule := rest }) ∧
    (s.schedule = [] →
      step s = exec i { s with pc := s.pc + 2, input := Config.freeInput s.draws, result := .completed,
                               draws := s.draws + 1 })

/-- R121 (derived there; D6 for the modulus of the advance): a fetch wholly outside the store reports both bytes, high byte
first, yields 0x0000, a legacy system call, and goes on; a fetch at 0xFFF reads its low byte as 0x00 and reports it. Both with
scheduled inputs and with free ones (log 2, log 3), whatever they are. -/
def Obligations.FetchOutsideTheStoreReportsAndGoesOn : Prop :=
  ∀ (s : State) (inp : StepInput) (rest : List HostAct) (n : Nat),
    (s.schedule = .cpu inp :: rest ∧ n = s.draws) ∨
      (s.schedule = [] ∧ inp = Config.freeInput s.draws ∧ rest = [] ∧ n = s.draws + 1) →
    (0xFFF < s.pc.toNat →
      step s = .next { s with
        pc := s.pc + 2, input := inp, result := .completed, schedule := rest, draws := n,
        errors := s.errors ++ [.addressing .read s.pc.toNat, .addressing .read (s.pc.toNat + 1)] }) ∧
    (s.pc.toNat = 0xFFF →
      step s = exec (decode (wordOfBytes (s.readByte 0xFFF) 0x00)) { s with
        pc := 0x1001, input := inp, result := .completed, schedule := rest, draws := n,
        errors := s.errors ++ [.addressing .read 0x1000] })

/-- R126: no step halts, traps or faults; every step ends in a next state. -/
def Obligations.EveryStepEndsInANextState : Prop := ∀ s : State, ∃ t, step s = .next t

/-- R128 and R242 (D19, D20 give the records and their order): a step only appends to the error output, and what it does, the
records it appends among it, does not depend on the errors reported before. -/
def Obligations.ErrorsAreOutputsThatNoInstructionReads : Prop :=
  ∀ s : State, ∃ t new, step s = .next t ∧ t.errors = s.errors ++ new ∧
    ∀ es, step { s with errors := es } = .next { t with errors := es ++ new }

/-- R129's sentence "only Ex9E, ExA1 and Fx0A read the key inputs and only Cxkk reads `rand`": any other instruction does the
same under any other inputs. -/
def Obligations.InputsAreReadOnlyByTheirInstructions : Prop :=
  ∀ (i : Instr) (s : State), ∃ t, exec i s = .next t ∧
    ((∀ x, i ≠ .skp x ∧ i ≠ .sknp x ∧ i ≠ .ldVxK x) → ∀ inp : StepInput, inp.rand = s.input.rand →
      exec i { s with input := inp } = .next { t with input := inp }) ∧
    ((∀ x kk, i ≠ .rnd x kk) → ∀ b : Byte,
      exec i { s with input := { s.input with rand := b } } = .next { t with input := { s.input with rand := b } })

/-- R129's `heldKey` (D16, D22; the model's form of the choice is log 3): none exactly when no key is held, otherwise a held
key, and every held key can be the collaborator's choice. -/
def Obligations.HeldKeyIsAnyHeldKey : Prop :=
  ∀ inp : StepInput, (heldKey inp = none ↔ ∀ k, keyHeld inp k = false) ∧
    (∀ k, heldKey inp = some k → keyHeld inp k = true) ∧
    (∀ k, keyHeld inp k = true → heldKey { inp with choice := k } = some k)

/-! ## Invariant and whole-machine rules -/

/-- From every state that meets it, a step keeps the invariant: the store's canonical form (the model's form of R60), SP in
−1..15 (R41, D27), and after a Retry PC points at an Fx0A instruction (R48). -/
def Obligations.EveryStepKeepsTheInvariant : Prop := ∀ s t : State, s.Inv → step s = .next t → t.Inv

/-- The invariant holds at reset. Its Retry clause holds there because `result` is Completed at reset, the model's choice
(log 6). -/
def Obligations.ResetMeetsTheInvariant : Prop := State.reset.Inv

/-- Every instruction completes from every state and changes nothing outside what its rule writes (R130, R35; the parts an
instruction may change are `mayChange`). -/
def Obligations.EveryInstructionChangesOnlyItsParts : Prop :=
  ∀ (i : Instr) (s : State), ∃ t, exec i s = .next t ∧ ChangesOnly s t (mayChange s i)

/-- R203 whole: during execution only 00E0 and Dxyn change FB, and FB is presented only between steps, by a frame tick, whole. -/
def Obligations.OnlyClearAndDrawChangeTheFramebuffer : Prop :=
  ∀ s t : State, step s = .next t →
    (t.fb ≠ s.fb → s.Runs .cls ∨ ∃ x y n, s.Runs (.drw x y n)) ∧
    (t.presented ≠ s.presented → ∃ rest, s.schedule = .tick :: rest ∧ t.fb = s.fb ∧ t.presented = s.presented ++ [s.fb])

/-- R40, R41 (D27 for the representation of SP): only a CALL with room writes a slot, the one above the top, and only CALL and
RET change SP. -/
def Obligations.OnlyCallAndReturnChangeTheStack : Prop :=
  ∀ s t : State, -1 ≤ s.sp → step s = .next t →
    (∀ j : Fin 16, t.stack[j] ≠ s.stack[j] → s.sp < 15 ∧ (j : Int) = s.sp + 1 ∧ ∃ nnn, s.Runs (.call nnn)) ∧
    (t.sp ≠ s.sp → (∃ nnn, s.Runs (.call nnn)) ∨ s.Runs .ret)

/-- R33, R38, R39, R60 (D8, D10): I is written only by Annn, Fx1E and Fx29, DT only by Fx15 and a frame tick, ST only by Fx18
and a frame tick, a byte of the store only by Fx33 and Fx55. -/
def Obligations.OnlyNamedInstructionsWriteIndexTimersAndStore : Prop :=
  ∀ s t : State, step s = .next t →
    (t.i ≠ s.i → (∃ nnn, s.Runs (.ldI nnn)) ∨ ∃ x, s.Runs (.addI x) ∨ s.Runs (.ldF x)) ∧
    (t.dt ≠ s.dt → (∃ rest, s.schedule = .tick :: rest) ∨ ∃ x, s.Runs (.ldDtVx x)) ∧
    (t.st ≠ s.st → (∃ rest, s.schedule = .tick :: rest) ∨ ∃ x, s.Runs (.ldStVx x)) ∧
    (∀ a, t.readByte a ≠ s.readByte a → ∃ x, s.Runs (.ldB x) ∨ s.Runs (.stRegs x))

/-- R31's list of the instructions that write VF (D12, D13 for what the others leave): the six flag instructions, or an
ordinary destination that is VF itself. -/
def Obligations.OnlyFlagInstructionsOrDestinationsWriteVF : Prop :=
  ∀ (i : Instr) (s t : State), exec i s = .next t → t.reg VF ≠ s.reg VF →
    (∃ x y, i = .addReg x y ∨ i = .subReg x y ∨ i = .shr x y ∨ i = .subnReg x y ∨ i = .shl x y) ∨
    (∃ x y n, i = .drw x y n) ∨
    (∃ kk, i = .ldImm VF kk ∨ i = .addImm VF kk ∨ i = .rnd VF kk) ∨
    (∃ y, i = .ldReg VF y ∨ i = .orReg VF y ∨ i = .andReg VF y ∨ i = .xorReg VF y) ∨
    i = .ldVxDt VF ∨ i = .ldVxK VF ∨ i = .ldRegs VF

/-! ## Control flow -/

/-- R140 whole: every 0nnn but 00E0 and 00EE is SYS nnn, and its handler changes nothing. -/
def Obligations.LegacySystemCallIsANoOp : Prop :=
  (∀ nnn : Addr12, nnn ≠ 0x0E0#12 → nnn ≠ 0x0EE#12 → decode (0x0#4 ++ nnn) = .sys nnn) ∧
  ∀ (nnn : Addr12) (s : State), exec (.sys nnn) s = .next s

/-- R171, R222, R227: the no-op instructions of families 0x8, 0xE and 0xF do nothing. R171's list of sub-opcodes rests on D2 and
D3. -/
def Obligations.UnassignedSubOpcodesAreNoOps : Prop :=
  (∀ (x y : Reg) (n : Nibble) (s : State), exec (.nop8 x y n) s = .next s) ∧
  (∀ (x : Reg) (kk : Byte) (s : State), exec (.nopE x kk) s = .next s) ∧
  (∀ (x : Reg) (kk : Byte) (s : State), exec (.nopF x kk) s = .next s)

/-- R142 and R148: JP takes the 12-bit target, odd ones too (D26); JP V0 takes V0 + nnn whole, not masked to 12 bits (D7). -/
def Obligations.JumpsTakeTheirTarget : Prop :=
  ∀ nnn : Addr12, decode (0x1#4 ++ nnn) = .jp nnn ∧ decode (0xB#4 ++ nnn) = .jpV0 nnn ∧ ∀ s : State,
    (∃ t, exec (.jp nnn) s = .next t ∧ t.pc.toNat = nnn.toNat ∧ ChangesOnly s t (fun p => p = .pc)) ∧
    (∃ t, exec (.jpV0 nnn) s = .next t ∧ t.pc.toNat = (s.reg 0).toNat + nnn.toNat ∧ ChangesOnly s t (fun p => p = .pc))

/-- R143: with room, CALL pushes PC (the address after the call) on the slot above the top and jumps; with SP = 15 it reports
and is a no-op, so PC stays after the call (conflict C3; D19 for the record). -/
def Obligations.CallPushesAndJumpsOrOverflows : Prop :=
  ∀ nnn : Addr12, decode (0x2#4 ++ nnn) = .call nnn ∧ ∀ s : State,
    (-1 ≤ s.sp → s.sp < 15 → ∃ t, exec (.call nnn) s = .next t ∧
      t.pc.toNat = nnn.toNat ∧ t.sp = s.sp + 1 ∧ (∀ j : Fin 16, (j : Int) = s.sp + 1 → t.stack[j] = s.pc) ∧
      ChangesOnly s t (fun p => p = .pc ∨ p = .sp ∨ ∃ j : Fin 16, (j : Int) = s.sp + 1 ∧ p = .slot j)) ∧
    (s.sp = 15 → exec (.call nnn) s = .next { s with errors := s.errors ++ [.stackOverflow s.pc] })

/-- R141: RET pops the top slot into PC and keeps the slot; with SP = −1 it reports and is a no-op, so PC stays after it
(conflict C3; D19 for the record). -/
def Obligations.ReturnPopsOrUnderflows : Prop :=
  decode 0x00EE = .ret ∧ ∀ s : State,
    (∀ j : Fin 16, s.sp = j → ∃ t, exec .ret s = .next t ∧ t.pc = s.stack[j] ∧ t.sp = s.sp - 1 ∧
      ChangesOnly s t (fun p => p = .pc ∨ p = .sp)) ∧
    (s.sp = -1 → exec .ret s = .next { s with errors := s.errors ++ [.stackUnderflow s.pc] })

/-- The source's round trip S7 (95_test_vectors.md §1): after a CALL, from any later state with the same stack and SP, RET
resumes at the address after the call with SP as before the call. -/
def Obligations.ReturnResumesAfterTheCall : Prop :=
  ∀ (nnn : Addr12) (s t u : State), -1 ≤ s.sp → s.sp < 15 → exec (.call nnn) s = .next t →
    u.stack = t.stack → u.sp = t.sp → ∃ v, exec .ret u = .next v ∧ v.pc = s.pc ∧ v.sp = s.sp

/-- The source's overflow scenario S8: from an empty stack 16 nested CALLs succeed with no error; a 17th reports the overflow
and does not jump (C3). -/
def Obligations.SixteenCallsNestAndTheSeventeenthOverflows : Prop :=
  ∀ (s : State) (targets : List Addr12) (nnn : Addr12), s.sp = -1 → targets.length = 16 →
    ∃ t, runInstrs (targets.map .call) s = .next t ∧ t.sp = 15 ∧ t.errors = s.errors ∧
      exec (.call nnn) t = .next { t with errors := t.errors ++ [.stackOverflow t.pc] }

/-- R144, R145 with R127 (D6 for the modulus of the skip): SE and SNE with an immediate. -/
def Obligations.SkipsOnImmediate : Prop :=
  ∀ (x : Reg) (kk : Byte), decode (0x3#4 ++ x ++ kk) = .seImm x kk ∧ decode (0x4#4 ++ x ++ kk) = .sneImm x kk ∧ ∀ s : State,
    (∃ t, exec (.seImm x kk) s = .next t ∧
      t.pc.toNat = (if s.reg x = kk then (s.pc.toNat + 2) % 65536 else s.pc.toNat) ∧ ChangesOnly s t (fun p => p = .pc)) ∧
    (∃ t, exec (.sneImm x kk) s = .next t ∧
      t.pc.toNat = (if s.reg x = kk then s.pc.toNat else (s.pc.toNat + 2) % 65536) ∧ ChangesOnly s t (fun p => p = .pc))

/-- R146, R147 with R127 (D6 for the modulus, D14 for the ignored low nibble n): SE and SNE with two registers. -/
def Obligations.SkipsOnRegisters : Prop :=
  ∀ (x y : Reg) (n : Nibble),
    decode (0x5#4 ++ x ++ y ++ n) = .seReg x y n ∧ decode (0x9#4 ++ x ++ y ++ n) = .sneReg x y n ∧ ∀ s : State,
    (∃ t, exec (.seReg x y n) s = .next t ∧
      t.pc.toNat = (if s.reg x = s.reg y then (s.pc.toNat + 2) % 65536 else s.pc.toNat) ∧
      ChangesOnly s t (fun p => p = .pc)) ∧
    (∃ t, exec (.sneReg x y n) s = .next t ∧
      t.pc.toNat = (if s.reg x = s.reg y then s.pc.toNat else (s.pc.toNat + 2) % 65536) ∧
      ChangesOnly s t (fun p => p = .pc))

/-- R220, R221: SKP and SKNP ask whether the key named by Vx is held; for a Vx above 15 the answer is the step's draw
`keyOutOfRange`, whatever it is (D15; D6 for the modulus of the skip). -/
def Obligations.SkipsOnKey : Prop :=
  ∀ x : Reg, decode (0xE#4 ++ x ++ 0x9E#8) = .skp x ∧ decode (0xE#4 ++ x ++ 0xA1#8) = .sknp x ∧ ∀ s : State,
    let held : Bool :=
      if h : (s.reg x).toNat < 16 then s.input.keys[(s.reg x).toNat] else s.input.keyOutOfRange
    (∃ t, exec (.skp x) s = .next t ∧
      t.pc.toNat = (if held then (s.pc.toNat + 2) % 65536 else s.pc.toNat) ∧ ChangesOnly s t (fun p => p = .pc)) ∧
    (∃ t, exec (.sknp x) s = .next t ∧
      t.pc.toNat = (if held then s.pc.toNat else (s.pc.toNat + 2) % 65536) ∧ ChangesOnly s t (fun p => p = .pc))

/-! ## Arithmetic and logic -/

/-- R160 and R161 whole: the immediate load, and the immediate addition modulo 256 with no flag. -/
def Obligations.ImmediateLoadAndAdd : Prop :=
  ∀ (x : Reg) (kk : Byte), decode (0x6#4 ++ x ++ kk) = .ldImm x kk ∧ decode (0x7#4 ++ x ++ kk) = .addImm x kk ∧ ∀ s : State,
    (∃ t, exec (.ldImm x kk) s = .next t ∧ t.reg x = kk ∧ ChangesOnly s t (fun p => p = .reg x)) ∧
    (∃ t, exec (.addImm x kk) s = .next t ∧ (t.reg x).toNat = ((s.reg x).toNat + kk.toNat) % 256 ∧
      ChangesOnly s t (fun p => p = .reg x))

/-- R162 for both values of MOVE_8XY0 (D2): the register move when it is true, nothing at all when it is false. -/
def Obligations.RegisterMoveFollowsItsParameter : Prop :=
  ∀ x y : Reg, decode (0x8#4 ++ x ++ y ++ 0x0#4) = .ldReg x y ∧ ∀ s : State,
    (s.move8xy0 = true → ∃ t, exec (.ldReg x y) s = .next t ∧ t.reg x = s.reg y ∧ ChangesOnly s t (fun p => p = .reg x)) ∧
    (s.move8xy0 = false → exec (.ldReg x y) s = .next s)

/-- R163–R165 (D3 for the sub-opcodes, D13 for VF): bit by bit, and no other register changes. -/
def Obligations.LogicWorksBitByBit : Prop :=
  ∀ x y : Reg, decode (0x8#4 ++ x ++ y ++ 0x1#4) = .orReg x y ∧ decode (0x8#4 ++ x ++ y ++ 0x2#4) = .andReg x y ∧
    decode (0x8#4 ++ x ++ y ++ 0x3#4) = .xorReg x y ∧ ∀ s : State,
    (∃ t, exec (.orReg x y) s = .next t ∧
      (∀ k, (t.reg x).getLsbD k = ((s.reg x).getLsbD k || (s.reg y).getLsbD k)) ∧ ChangesOnly s t (fun p => p = .reg x)) ∧
    (∃ t, exec (.andReg x y) s = .next t ∧
      (∀ k, (t.reg x).getLsbD k = ((s.reg x).getLsbD k && (s.reg y).getLsbD k)) ∧ ChangesOnly s t (fun p => p = .reg x)) ∧
    (∃ t, exec (.xorReg x y) s = .next t ∧
      (∀ k, (t.reg x).getLsbD k = ((s.reg x).getLsbD k ^^ (s.reg y).getLsbD k)) ∧ ChangesOnly s t (fun p => p = .reg x))

/-- R166 (D12 for the operands read before any write): the sum modulo 256 in Vx, the carry in VF; with x = F the carry is
what VF holds. -/
def Obligations.AddSetsCarry : Prop :=
  ∀ x y : Reg, decode (0x8#4 ++ x ++ y ++ 0x4#4) = .addReg x y ∧ ∀ s : State,
    ∃ t, exec (.addReg x y) s = .next t ∧
      (x ≠ VF → (t.reg x).toNat = ((s.reg x).toNat + (s.reg y).toNat) % 256) ∧
      (t.reg VF).toNat = (if (s.reg x).toNat + (s.reg y).toNat > 255 then 1 else 0) ∧
      ChangesOnly s t (fun p => p = .reg x ∨ p = .reg VF)

/-- R167 and R169 (D12; D3 for the sub-opcode 7): the difference modulo 256 in Vx, a negative difference d becoming d + 256
(R173), and VF = 1 exactly when there is no borrow; with x = F the flag is what VF holds. -/
def Obligations.SubtractSetsNoBorrow : Prop :=
  ∀ x y : Reg, decode (0x8#4 ++ x ++ y ++ 0x5#4) = .subReg x y ∧ decode (0x8#4 ++ x ++ y ++ 0x7#4) = .subnReg x y ∧ ∀ s : State,
    (∃ t, exec (.subReg x y) s = .next t ∧
      (x ≠ VF → ((t.reg x).toNat : Int) = ((s.reg x).toNat - (s.reg y).toNat : Int) % 256) ∧
      (t.reg VF).toNat = (if (s.reg x).toNat ≥ (s.reg y).toNat then 1 else 0) ∧
      ChangesOnly s t (fun p => p = .reg x ∨ p = .reg VF)) ∧
    (∃ t, exec (.subnReg x y) s = .next t ∧
      (x ≠ VF → ((t.reg x).toNat : Int) = ((s.reg y).toNat - (s.reg x).toNat : Int) % 256) ∧
      (t.reg VF).toNat = (if (s.reg y).toNat ≥ (s.reg x).toNat then 1 else 0) ∧
      ChangesOnly s t (fun p => p = .reg x ∨ p = .reg VF))

/-- R168 and R170 (D3, D12): Vx is shifted by one, Vy is not read, and VF is the bit shifted out; with x = F that bit is what VF
holds. -/
def Obligations.ShiftsPutTheLostBitInVF : Prop :=
  ∀ x y : Reg, decode (0x8#4 ++ x ++ y ++ 0x6#4) = .shr x y ∧ decode (0x8#4 ++ x ++ y ++ 0xE#4) = .shl x y ∧ ∀ s : State,
    (∃ t, exec (.shr x y) s = .next t ∧
      (x ≠ VF → (t.reg x).toNat = (s.reg x).toNat / 2) ∧ (t.reg VF).toNat = (s.reg x).toNat % 2 ∧
      ChangesOnly s t (fun p => p = .reg x ∨ p = .reg VF)) ∧
    (∃ t, exec (.shl x y) s = .next t ∧
      (x ≠ VF → (t.reg x).toNat = (s.reg x).toNat * 2 % 256) ∧ (t.reg VF).toNat = (s.reg x).toNat / 128 ∧
      ChangesOnly s t (fun p => p = .reg x ∨ p = .reg VF))

/-- R172: the step's random byte, whatever it is (D18), masked bit by bit. -/
def Obligations.RandomByteIsMasked : Prop :=
  ∀ (x : Reg) (kk : Byte), decode (0xC#4 ++ x ++ kk) = .rnd x kk ∧ ∀ s : State,
    ∃ t, exec (.rnd x kk) s = .next t ∧ (∀ k, (t.reg x).getLsbD k = (s.input.rand.getLsbD k && kk.getLsbD k)) ∧
      ChangesOnly s t (fun p => p = .reg x)

/-! ## Index register and memory -/

/-- R180 and R182 whole: I takes nnn with its upper 4 bits 0; I takes 5 times the low nibble of Vx. -/
def Obligations.IndexLoadsAddressAndGlyph : Prop :=
  (∀ nnn : Addr12, decode (0xA#4 ++ nnn) = .ldI nnn ∧ ∀ s : State,
    ∃ t, exec (.ldI nnn) s = .next t ∧ t.i.toNat = nnn.toNat ∧ ChangesOnly s t (fun p => p = .index)) ∧
  (∀ x : Reg, decode (0xF#4 ++ x ++ 0x29#8) = .ldF x ∧ ∀ s : State,
    ∃ t, exec (.ldF x) s = .next t ∧ t.i.toNat = 5 * ((s.reg x).toNat % 16) ∧ ChangesOnly s t (fun p => p = .index))

/-- R181 (D8 for the modulus and for VF): I + Vx modulo 2^16, no flag. -/
def Obligations.AddToIndexWraps : Prop :=
  ∀ x : Reg, decode (0xF#4 ++ x ++ 0x1E#8) = .addI x ∧ ∀ s : State,
    ∃ t, exec (.addI x) s = .next t ∧ t.i.toNat = (s.i.toNat + (s.reg x).toNat) % 65536 ∧
      ChangesOnly s t (fun p => p = .index)

/-- R183 (D11 for the order and form of the digits, D9 for the exact sum): the decimal digits of Vx at I, I + 1, I + 2, hundreds
first; a digit outside the store is reported and not written, the others are. -/
def Obligations.DecimalDigitsAreStored : Prop :=
  ∀ x : Reg, decode (0xF#4 ++ x ++ 0x33#8) = .ldB x ∧ ∀ s : State,
    ∃ (t : State) (d0 d1 d2 : Nat), exec (.ldB x) s = .next t ∧
      (s.reg x).toNat = 100 * d0 + 10 * d1 + d2 ∧ d0 ≤ 2 ∧ d1 ≤ 9 ∧ d2 ≤ 9 ∧
      (s.i.toNat ≤ 0xFFF → (t.readByte s.i.toNat).toNat = d0) ∧
      (s.i.toNat + 1 ≤ 0xFFF → (t.readByte (s.i.toNat + 1)).toNat = d1) ∧
      (s.i.toNat + 2 ≤ 0xFFF → (t.readByte (s.i.toNat + 2)).toNat = d2) ∧
      t.errors = s.errors ++ accessErrors .write s 3 ∧
      ChangesOnly s t (fun p => p = .errors ∨ ∃ k, k < 3 ∧ p = .byte (s.i.toNat + k))

/-- R184 (D10: I is unchanged; D9): V0..Vx at I, I + 1, …; a byte outside the store is reported, in increasing order. -/
def Obligations.RegistersAreStored : Prop :=
  ∀ x : Reg, decode (0xF#4 ++ x ++ 0x55#8) = .stRegs x ∧ ∀ s : State,
    ∃ t, exec (.stRegs x) s = .next t ∧
      (∀ r : Reg, r.toNat ≤ x.toNat → s.i.toNat + r.toNat ≤ 0xFFF → t.readByte (s.i.toNat + r.toNat) = s.reg r) ∧
      t.errors = s.errors ++ accessErrors .write s (x.toNat + 1) ∧
      ChangesOnly s t (fun p => p = .errors ∨ ∃ k, k ≤ x.toNat ∧ p = .byte (s.i.toNat + k))

/-- R185 (D10: I is unchanged; D9): V0..Vx from I, I + 1, …; a byte outside the store loads 0x00 and is reported, in
increasing order. -/
def Obligations.RegistersAreLoaded : Prop :=
  ∀ x : Reg, decode (0xF#4 ++ x ++ 0x65#8) = .ldRegs x ∧ ∀ s : State,
    ∃ t, exec (.ldRegs x) s = .next t ∧
      (∀ r : Reg, r.toNat ≤ x.toNat →
        t.reg r = if s.i.toNat + r.toNat ≤ 0xFFF then s.mem.read (s.i.toNat + r.toNat) else 0x00) ∧
      t.errors = s.errors ++ accessErrors .read s (x.toNat + 1) ∧
      ChangesOnly s t (fun p => p = .errors ∨ ∃ r : Reg, r.toNat ≤ x.toNat ∧ p = .reg r)

/-! ## Display -/

/-- R200 whole: every cell off, VF and everything else unchanged. -/
def Obligations.ClearTurnsEveryCellOff : Prop :=
  decode 0x00E0 = .cls ∧ ∀ s : State, ∃ t, exec .cls s = .next t ∧ (∀ r c, pixel t.fb r c = false) ∧
    ChangesOnly s t (fun p => ∃ r c, p = .pixel r c)

/-- R201 (D21 for x = F or y = F, D9 for the exact row addresses; conflicts C5 and C9): the loop over rows and columns toggles
exactly the cells that the sprite covers with a 1 bit, each axis wrapping on its own, and VF is 1 exactly when such a cell was
on; a row outside the store is reported and draws nothing. -/
def Obligations.DrawTogglesExactlyTheSpriteCells : Prop :=
  ∀ (x y : Reg) (n : Nibble), decode (0xD#4 ++ x ++ y ++ n) = .drw x y n ∧ ∀ s : State,
    ∃ t, exec (.drw x y n) s = .next t ∧
      (∀ r c, pixel t.fb r c = (pixel s.fb r c ^^ spriteCovers s x y n r c)) ∧
      (t.reg VF = 1 ↔ ∃ r c, spriteCovers s x y n r c = true ∧ pixel s.fb r c = true) ∧
      (t.reg VF = 0 ↔ ∀ r c, spriteCovers s x y n r c = true → pixel s.fb r c = false) ∧
      t.errors = s.errors ++ accessErrors .read s n.toNat ∧
      ChangesOnly s t (fun p => p = .reg VF ∨ p = .errors ∨ ∃ r c, p = .pixel r c)

/-- R202 in the form that R201 gives it (log 10): a second draw with the same coordinates, I, height and store restores FB. It
sets VF exactly when the first draw turned a cell on, so with 1, as R202 says, wherever a cell under a 1 bit of the sprite was
off before the first draw, and with 0 where every such cell was on, the case in which R202's own reason ("each pixel the first
draw turned on is found on") names no cell. -/
def Obligations.SecondDrawRestoresTheFramebuffer : Prop :=
  ∀ (x y : Reg) (n : Nibble) (s t u v : State), exec (.drw x y n) s = .next t →
    u.fb = t.fb → u.mem = s.mem → u.i = s.i → u.reg x = s.reg x → u.reg y = s.reg y → exec (.drw x y n) u = .next v →
    v.fb = s.fb ∧ (v.reg VF = 1 ↔ ∃ r c, pixel s.fb r c = false ∧ pixel t.fb r c = true) ∧
    ((∃ r c, spriteCovers s x y n r c = true ∧ pixel s.fb r c = false) → v.reg VF = 1) ∧
    ((∀ r c, spriteCovers s x y n r c = true → pixel s.fb r c = true) → v.reg VF = 0)

/-! ## Keys and timers -/

/-- R223, R225, R226 (conflict C6: no instruction reads ST): Vx from DT, DT from Vx, ST from Vx. -/
def Obligations.TimersAreReadAndWritten : Prop :=
  ∀ x : Reg, decode (0xF#4 ++ x ++ 0x07#8) = .ldVxDt x ∧ decode (0xF#4 ++ x ++ 0x15#8) = .ldDtVx x ∧
    decode (0xF#4 ++ x ++ 0x18#8) = .ldStVx x ∧ ∀ s : State,
    (∃ t, exec (.ldVxDt x) s = .next t ∧ t.reg x = s.dt ∧ ChangesOnly s t (fun p => p = .reg x)) ∧
    (∃ t, exec (.ldDtVx x) s = .next t ∧ t.dt = s.reg x ∧ ChangesOnly s t (fun p => p = .dt)) ∧
    (∃ t, exec (.ldStVx x) s = .next t ∧ t.st = s.reg x ∧ ChangesOnly s t (fun p => p = .st))

/-- R224 (D16 for the choice of the key, D17 for the mechanism): the key that `HeldKey()` names goes to Vx, and it names one
whenever a key is held; with no key held PC goes back by 2 and the result is Retry. -/
def Obligations.KeyWaitTakesAHeldKeyOrRetries : Prop :=
  ∀ x : Reg, decode (0xF#4 ++ x ++ 0x0A#8) = .ldVxK x ∧ ∀ s : State,
    (∀ k, heldKey s.input = some k → ∃ t, exec (.ldVxK x) s = .next t ∧ (t.reg x).toNat = k.toNat ∧
      ChangesOnly s t (fun p => p = .reg x)) ∧
    ((∃ k, keyHeld s.input k = true) → ∃ t k, exec (.ldVxK x) s = .next t ∧ keyHeld s.input k = true ∧
      (t.reg x).toNat = k.toNat ∧ ChangesOnly s t (fun p => p = .reg x)) ∧
    ((∀ k, keyHeld s.input k = false) → ∃ t, exec (.ldVxK x) s = .next t ∧ t.result = .retry ∧ t.pc = s.pc - 2 ∧
      ChangesOnly s t (fun p => p = .pc ∨ p = .result))

/-- R224, R278 over any schedule (D16, D17, D23; the schedule is log 2): while no key is held, steps at an Fx0A and frame ticks,
in any order and number, leave PC there and change nothing but DT and ST, which the ticks count down, and the outputs `result`
and `presented`, with the step inputs and the schedule moving on. -/
def Obligations.WaitingChangesOnlyTheTimers : Prop :=
  ∀ (acts rest : List HostAct) (s : State) (x : Reg), s.schedule = acts ++ rest → (∀ a ∈ acts, a.waits) →
    s.pc.toNat < 0xFFF → decode s.nextWord = .ldVxK x →
    ∃ t : State, Sys2Proof.core.run acts.length s = .next t ∧
      t.schedule = rest ∧ t.pc = s.pc ∧ t.dt.toNat = s.dt.toNat - tickCount acts ∧ t.st.toNat = s.st.toNat - tickCount acts ∧
      ChangesOnly s t (fun p => p = .dt ∨ p = .st ∨ p = .result ∨ p = .presented ∨ p = .input ∨ p = .schedule)

/-- R250 whole: a frame tick decrements DT and ST by 1, each with a floor of 0, presents FB, and changes no other state of the
core. -/
def Obligations.FrameTickCountsDownAndPresents : Prop :=
  ∀ (s : State) (rest : List HostAct), s.schedule = .tick :: rest →
    ∃ t, step s = .next t ∧ t.schedule = rest ∧
      t.dt.toNat = (if s.dt.toNat > 0 then s.dt.toNat - 1 else 0) ∧
      t.st.toNat = (if s.st.toNat > 0 then s.st.toNat - 1 else 0) ∧
      t.presented = s.presented ++ [s.fb] ∧
      ChangesOnly s t (fun p => p = .dt ∨ p = .st ∨ p = .presented ∨ p = .schedule)

/-- The source's property S9 for every number of ticks: after n frame ticks each timer has lost n, with a floor of 0. -/
def Obligations.TimersReachZeroAndStay : Prop :=
  ∀ (n : Nat) (s : State) (rest : List HostAct), s.schedule = List.replicate n .tick ++ rest →
    ∃ t : State, Sys2Proof.core.run n s = .next t ∧ t.dt.toNat = s.dt.toNat - n ∧ t.st.toNat = s.st.toNat - n

/-! ## The end of a run -/

/-- R257, R258 (the model's form of a quit is log 2): after the quit signal the core does nothing and no further interaction
takes place, in any number of steps. -/
def Obligations.QuitEndsTheSession : Prop :=
  ∀ (s : State) (rest : List HostAct) (n : Nat), s.schedule = .quit :: rest → Sys2Proof.core.run n s = .next s

/-- R281, R142: a step at a jump to itself leaves the core's whole state unchanged and reports nothing. -/
def Obligations.SelfJumpChangesNothing : Prop :=
  ∀ (s : State) (nnn : Addr12) (inp : StepInput) (rest : List HostAct), s.schedule = .cpu inp :: rest →
    s.pc.toNat < 0xFFF → s.pc.toNat = nnn.toNat → decode s.nextWord = .jp nnn →
    step s = .next { s with input := inp, result := .completed, schedule := rest }

/-! ## The parameter -/

/-- R8: MOVE_8XY0 is a parameter, fixed for the machine; its place as a field of State is the model's (log 7). No step changes
it. -/
def Obligations.StepKeepsTheParameter : Prop := ∀ s t : State, step s = .next t → t.move8xy0 = s.move8xy0
end

