-- ==== Sys2Proof/Laws/Decode.lean ====
section
/-! SUPPORT. The fields of a word as numbers, the numbers of the words the encoder builds, and from these the fields of an
encoded word and the word back from its fields. -/

namespace Sys2Proof

/-- The number of two bit strings put together. -/
theorem toNat_append_eq {m n : Nat} (a : BitVec m) (b : BitVec n) :
    (a ++ b).toNat = a.toNat * 2 ^ n + b.toNat := by
  rw [BitVec.toNat_append, ← Nat.shiftLeft_add_eq_or_of_lt b.isLt, Nat.shiftLeft_eq]

/-! ## The fields of a word, as numbers (R92) -/

theorem famOf_toNat (w : Word) : (famOf w).toNat = w.toNat / 4096 % 16 := by
  simp [famOf, BitVec.extractLsb'_toNat, Nat.shiftRight_eq_div_pow]

theorem xOf_toNat (w : Word) : (xOf w).toNat = w.toNat / 256 % 16 := by
  simp [xOf, BitVec.extractLsb'_toNat, Nat.shiftRight_eq_div_pow]

theorem yOf_toNat (w : Word) : (yOf w).toNat = w.toNat / 16 % 16 := by
  simp [yOf, BitVec.extractLsb'_toNat, Nat.shiftRight_eq_div_pow]

theorem nOf_toNat (w : Word) : (nOf w).toNat = w.toNat % 16 := by
  simp [nOf, BitVec.extractLsb'_toNat]

theorem kkOf_toNat (w : Word) : (kkOf w).toNat = w.toNat % 256 := by
  simp [kkOf, BitVec.extractLsb'_toNat]

theorem nnnOf_toNat (w : Word) : (nnnOf w).toNat = w.toNat % 4096 := by
  simp [nnnOf, BitVec.extractLsb'_toNat]

theorem hiByte_toNat (w : Word) : (hiByte w).toNat = w.toNat / 256 := by
  simp only [hiByte, BitVec.extractLsb'_toNat, Nat.shiftRight_eq_div_pow]
  have := w.isLt
  omega

theorem loByte_toNat (w : Word) : (loByte w).toNat = w.toNat % 256 := by
  simp [loByte, BitVec.extractLsb'_toNat]

/-! ## The words of the encoder, as numbers (R94) -/

theorem wordOfBytes_toNat (hi lo : Byte) : (wordOfBytes hi lo).toNat = hi.toNat * 256 + lo.toNat :=
  toNat_append_eq hi lo

theorem encNNN_toNat (f : Nibble) (nnn : Addr12) : (encNNN f nnn).toNat = f.toNat * 4096 + nnn.toNat :=
  toNat_append_eq f nnn

theorem encXKK_toNat (f : Nibble) (x : Reg) (kk : Byte) :
    (encXKK f x kk).toNat = f.toNat * 4096 + x.toNat * 256 + kk.toNat := by
  have h : (encXKK f x kk).toNat = (f ++ x).toNat * 256 + kk.toNat := toNat_append_eq (f ++ x) kk
  rw [h, toNat_append_eq]
  omega

theorem encXYN_toNat (f : Nibble) (x y : Reg) (n : Nibble) :
    (encXYN f x y n).toNat = f.toNat * 4096 + x.toNat * 256 + y.toNat * 16 + n.toNat := by
  have h : (encXYN f x y n).toNat = (f ++ x ++ y).toNat * 16 + n.toNat := toNat_append_eq (f ++ x ++ y) n
  rw [h, toNat_append_eq, toNat_append_eq]
  omega

/-! ## The fields of an encoded word -/

@[simp] theorem famOf_encNNN (f : Nibble) (nnn : Addr12) : famOf (encNNN f nnn) = f := by
  apply BitVec.eq_of_toNat_eq
  rw [famOf_toNat, encNNN_toNat]
  omega

@[simp] theorem nnnOf_encNNN (f : Nibble) (nnn : Addr12) : nnnOf (encNNN f nnn) = nnn := by
  apply BitVec.eq_of_toNat_eq
  rw [nnnOf_toNat, encNNN_toNat]
  omega

@[simp] theorem famOf_encXKK (f : Nibble) (x : Reg) (kk : Byte) : famOf (encXKK f x kk) = f := by
  apply BitVec.eq_of_toNat_eq
  rw [famOf_toNat, encXKK_toNat]
  omega

@[simp] theorem xOf_encXKK (f : Nibble) (x : Reg) (kk : Byte) : xOf (encXKK f x kk) = x := by
  apply BitVec.eq_of_toNat_eq
  rw [xOf_toNat, encXKK_toNat]
  omega

@[simp] theorem kkOf_encXKK (f : Nibble) (x : Reg) (kk : Byte) : kkOf (encXKK f x kk) = kk := by
  apply BitVec.eq_of_toNat_eq
  rw [kkOf_toNat, encXKK_toNat]
  omega

@[simp] theorem famOf_encXYN (f : Nibble) (x y : Reg) (n : Nibble) : famOf (encXYN f x y n) = f := by
  apply BitVec.eq_of_toNat_eq
  rw [famOf_toNat, encXYN_toNat]
  omega

@[simp] theorem xOf_encXYN (f : Nibble) (x y : Reg) (n : Nibble) : xOf (encXYN f x y n) = x := by
  apply BitVec.eq_of_toNat_eq
  rw [xOf_toNat, encXYN_toNat]
  omega

@[simp] theorem yOf_encXYN (f : Nibble) (x y : Reg) (n : Nibble) : yOf (encXYN f x y n) = y := by
  apply BitVec.eq_of_toNat_eq
  rw [yOf_toNat, encXYN_toNat]
  omega

@[simp] theorem nOf_encXYN (f : Nibble) (x y : Reg) (n : Nibble) : nOf (encXYN f x y n) = n := by
  apply BitVec.eq_of_toNat_eq
  rw [nOf_toNat, encXYN_toNat]
  omega

/-! ## A word from its own fields -/

theorem encNNN_fields (w : Word) : encNNN (famOf w) (nnnOf w) = w := by
  apply BitVec.eq_of_toNat_eq
  rw [encNNN_toNat, famOf_toNat, nnnOf_toNat]
  omega

theorem encXKK_fields (w : Word) : encXKK (famOf w) (xOf w) (kkOf w) = w := by
  apply BitVec.eq_of_toNat_eq
  rw [encXKK_toNat, famOf_toNat, xOf_toNat, kkOf_toNat]
  omega

theorem encXYN_fields (w : Word) : encXYN (famOf w) (xOf w) (yOf w) (nOf w) = w := by
  apply BitVec.eq_of_toNat_eq
  rw [encXYN_toNat, famOf_toNat, xOf_toNat, yOf_toNat, nOf_toNat]
  omega

@[simp] theorem wordOfBytes_hi_lo (w : Word) : wordOfBytes (hiByte w) (loByte w) = w := by
  apply BitVec.eq_of_toNat_eq
  rw [wordOfBytes_toNat, hiByte_toNat, loByte_toNat]
  omega

/-! ## The decoder, family by family (R95) -/

variable {w : Word}

theorem decode_family_0 (h : famOf w = 0x0#4) : decode w = decode0 (nnnOf w) := by
  simp [decode, h]

theorem decode_family_1 (h : famOf w = 0x1#4) : decode w = .jp (nnnOf w) := by
  simp [decode, h]

theorem decode_family_2 (h : famOf w = 0x2#4) : decode w = .call (nnnOf w) := by
  simp [decode, h]

theorem decode_family_3 (h : famOf w = 0x3#4) : decode w = .seImm (xOf w) (kkOf w) := by
  simp [decode, h]

theorem decode_family_4 (h : famOf w = 0x4#4) : decode w = .sneImm (xOf w) (kkOf w) := by
  simp [decode, h]

theorem decode_family_5 (h : famOf w = 0x5#4) : decode w = .seReg (xOf w) (yOf w) (nOf w) := by
  simp [decode, h]

theorem decode_family_6 (h : famOf w = 0x6#4) : decode w = .ldImm (xOf w) (kkOf w) := by
  simp [decode, h]

theorem decode_family_7 (h : famOf w = 0x7#4) : decode w = .addImm (xOf w) (kkOf w) := by
  simp [decode, h]

theorem decode_family_8 (h : famOf w = 0x8#4) : decode w = decode8 (xOf w) (yOf w) (nOf w) := by
  simp [decode, h]

theorem decode_family_9 (h : famOf w = 0x9#4) : decode w = .sneReg (xOf w) (yOf w) (nOf w) := by
  simp [decode, h]

theorem decode_family_A (h : famOf w = 0xA#4) : decode w = .ldI (nnnOf w) := by
  simp [decode, h]

theorem decode_family_B (h : famOf w = 0xB#4) : decode w = .jpV0 (nnnOf w) := by
  simp [decode, h]

theorem decode_family_C (h : famOf w = 0xC#4) : decode w = .rnd (xOf w) (kkOf w) := by
  simp [decode, h]

theorem decode_family_D (h : famOf w = 0xD#4) : decode w = .drw (xOf w) (yOf w) (nOf w) := by
  simp [decode, h]

theorem decode_family_E (h : famOf w = 0xE#4) : decode w = decodeE (xOf w) (kkOf w) := by
  simp [decode, h]

theorem decode_family_F (h : famOf w = 0xF#4) : decode w = decodeF (xOf w) (kkOf w) := by
  simp [decode, h]

/-- The word that two bytes form, read from a byte string. -/
@[simp] theorem decodeBytes_two (hi lo : Byte) (rest : List Byte) :
    decodeBytes (hi :: lo :: rest) = .ok (decode (wordOfBytes hi lo), rest) := rfl

/-! ## The fields of a word written as its parts -/

theorem fields_NNN {f : Nibble} {nnn : Addr12} : famOf (f ++ nnn) = f ∧ nnnOf (f ++ nnn) = nnn :=
  ⟨famOf_encNNN _ _, nnnOf_encNNN _ _⟩

theorem fields_XKK {f : Nibble} {x : Reg} {kk : Byte} :
    famOf (f ++ x ++ kk) = f ∧ xOf (f ++ x ++ kk) = x ∧ kkOf (f ++ x ++ kk) = kk :=
  ⟨famOf_encXKK _ _ _, xOf_encXKK _ _ _, kkOf_encXKK _ _ _⟩

theorem fields_XYN {f : Nibble} {x y : Reg} {n : Nibble} :
    famOf (f ++ x ++ y ++ n) = f ∧ xOf (f ++ x ++ y ++ n) = x ∧ yOf (f ++ x ++ y ++ n) = y ∧ nOf (f ++ x ++ y ++ n) = n :=
  ⟨famOf_encXYN _ _ _ _, xOf_encXYN _ _ _ _, yOf_encXYN _ _ _ _, nOf_encXYN _ _ _ _⟩

/-! ## The rows of the opcode table, nibble by nibble -/

theorem append_eq_append_iff {m n : Nat} {a c : BitVec m} {b d : BitVec n} : a ++ b = c ++ d ↔ a = c ∧ b = d := by
  constructor
  · intro h
    have h' := congrArg BitVec.toNat h
    rw [toNat_append_eq, toNat_append_eq] at h'
    have hp : 0 < 2 ^ n := Nat.two_pow_pos n
    have h1 : (a.toNat * 2 ^ n + b.toNat) / 2 ^ n = a.toNat := by
      rw [Nat.mul_comm, Nat.mul_add_div hp, Nat.div_eq_of_lt b.isLt, Nat.add_zero]
    have h2 : (c.toNat * 2 ^ n + d.toNat) / 2 ^ n = c.toNat := by
      rw [Nat.mul_comm, Nat.mul_add_div hp, Nat.div_eq_of_lt d.isLt, Nat.add_zero]
    have e : a.toNat = c.toNat := by rw [← h1, ← h2, h']
    refine ⟨BitVec.eq_of_toNat_eq e, BitVec.eq_of_toNat_eq ?_⟩
    rw [e] at h'
    omega
  · rintro ⟨rfl, rfl⟩
    rfl

/-- The row's fixed bits agree with a word whose nibbles are a, b, c, d, bit 15 at the left. -/
def OpRow.fits (r : OpRow) (a b c d : Nibble) : Bool :=
  a &&& famOf r.mask == famOf r.value && b &&& xOf r.mask == xOf r.value && c &&& yOf r.mask == yOf r.value
    && d &&& nOf r.mask == nOf r.value

theorem selects_wordOf (a b c d fm xm ym nm fv xv yv nv : Nibble) (p : Nat) :
    (OpRow.mk (wordOf fm xm ym nm) (wordOf fv xv yv nv) p).selects (wordOf a b c d) = true ↔
      a &&& fm = fv ∧ b &&& xm = xv ∧ c &&& ym = yv ∧ d &&& nm = nv := by
  rw [OpRow.selects, beq_iff_eq]
  change (((a ++ b ++ c ++ d : BitVec (4 + 4 + 4 + 4)) &&& (fm ++ xm ++ ym ++ nm : BitVec (4 + 4 + 4 + 4))) =
    (fv ++ xv ++ yv ++ nv : BitVec (4 + 4 + 4 + 4))) ↔ _
  simp only [BitVec.and_append, append_eq_append_iff, and_assoc]

theorem OpRow.selects_eq_fits (r : OpRow) (w : Word) : r.selects w = r.fits (famOf w) (xOf w) (yOf w) (nOf w) := by
  rw [Bool.eq_iff_iff]
  have h := selects_wordOf (famOf w) (xOf w) (yOf w) (nOf w) (famOf r.mask) (xOf r.mask) (yOf r.mask) (nOf r.mask)
    (famOf r.value) (xOf r.value) (yOf r.value) (nOf r.value) r.priority
  have h1 := encXYN_fields w
  have h2 := encXYN_fields r.mask
  have h3 := encXYN_fields r.value
  simp only [encXYN] at h1 h2 h3
  rw [h1, h2, h3] at h
  exact h.trans (by simp [OpRow.fits, and_assoc])

theorem and_ones (f : Nibble) : f &&& 0xF = f := by
  revert f
  decide

/-- A row that fixes the family alone selects every word of the family. -/
theorem selects_of_family {w : Word} {f : Nibble} (p : Nat) (h : famOf w = f) :
    (OpRow.mk (wordOf 0xF 0 0 0) (wordOf f 0 0 0) p).selects w = true := by
  rw [← encXYN_fields w, encXYN, selects_wordOf, h]
  exact ⟨and_ones f, BitVec.and_zero, BitVec.and_zero, BitVec.and_zero⟩

/-- A row that fixes the family and the low nibble. -/
theorem selects_of_family_nibble {w : Word} {f n : Nibble} (p : Nat) (h : famOf w = f) (h' : nOf w = n) :
    (OpRow.mk (wordOf 0xF 0 0 0xF) (wordOf f 0 0 n) p).selects w = true := by
  rw [← encXYN_fields w, encXYN, selects_wordOf, h, h']
  exact ⟨and_ones f, BitVec.and_zero, BitVec.and_zero, and_ones n⟩

end Sys2Proof
end

