-- ==== Sys2Proof/Laws/State.lean ====
section
/-! SUPPORT. One lemma per field per update of `State`, each true by `rfl`: no later proof unfolds a record update. -/

namespace Sys2Proof.Machine

variable (s : State)

/-! ## `State.setReg` -/

@[simp] theorem State.setReg_v (r : Reg) (b : Byte) : (s.setReg r b).v = s.v.set r.toNat b r.isLt := rfl
@[simp] theorem State.setReg_i (r : Reg) (b : Byte) : (s.setReg r b).i = s.i := rfl
@[simp] theorem State.setReg_pc (r : Reg) (b : Byte) : (s.setReg r b).pc = s.pc := rfl
@[simp] theorem State.setReg_dt (r : Reg) (b : Byte) : (s.setReg r b).dt = s.dt := rfl
@[simp] theorem State.setReg_st (r : Reg) (b : Byte) : (s.setReg r b).st = s.st := rfl
@[simp] theorem State.setReg_sp (r : Reg) (b : Byte) : (s.setReg r b).sp = s.sp := rfl
@[simp] theorem State.setReg_stack (r : Reg) (b : Byte) : (s.setReg r b).stack = s.stack := rfl
@[simp] theorem State.setReg_mem (r : Reg) (b : Byte) : (s.setReg r b).mem = s.mem := rfl
@[simp] theorem State.setReg_fb (r : Reg) (b : Byte) : (s.setReg r b).fb = s.fb := rfl
@[simp] theorem State.setReg_result (r : Reg) (b : Byte) : (s.setReg r b).result = s.result := rfl
@[simp] theorem State.setReg_errors (r : Reg) (b : Byte) : (s.setReg r b).errors = s.errors := rfl
@[simp] theorem State.setReg_presented (r : Reg) (b : Byte) : (s.setReg r b).presented = s.presented := rfl
@[simp] theorem State.setReg_input (r : Reg) (b : Byte) : (s.setReg r b).input = s.input := rfl
@[simp] theorem State.setReg_schedule (r : Reg) (b : Byte) : (s.setReg r b).schedule = s.schedule := rfl
@[simp] theorem State.setReg_draws (r : Reg) (b : Byte) : (s.setReg r b).draws = s.draws := rfl
@[simp] theorem State.setReg_move8xy0 (r : Reg) (b : Byte) : (s.setReg r b).move8xy0 = s.move8xy0 := rfl

/-! ## `State.setI` -/

@[simp] theorem State.setI_v (w : Word) : (s.setI w).v = s.v := rfl
@[simp] theorem State.setI_i (w : Word) : (s.setI w).i = w := rfl
@[simp] theorem State.setI_pc (w : Word) : (s.setI w).pc = s.pc := rfl
@[simp] theorem State.setI_dt (w : Word) : (s.setI w).dt = s.dt := rfl
@[simp] theorem State.setI_st (w : Word) : (s.setI w).st = s.st := rfl
@[simp] theorem State.setI_sp (w : Word) : (s.setI w).sp = s.sp := rfl
@[simp] theorem State.setI_stack (w : Word) : (s.setI w).stack = s.stack := rfl
@[simp] theorem State.setI_mem (w : Word) : (s.setI w).mem = s.mem := rfl
@[simp] theorem State.setI_fb (w : Word) : (s.setI w).fb = s.fb := rfl
@[simp] theorem State.setI_result (w : Word) : (s.setI w).result = s.result := rfl
@[simp] theorem State.setI_errors (w : Word) : (s.setI w).errors = s.errors := rfl
@[simp] theorem State.setI_presented (w : Word) : (s.setI w).presented = s.presented := rfl
@[simp] theorem State.setI_input (w : Word) : (s.setI w).input = s.input := rfl
@[simp] theorem State.setI_schedule (w : Word) : (s.setI w).schedule = s.schedule := rfl
@[simp] theorem State.setI_draws (w : Word) : (s.setI w).draws = s.draws := rfl
@[simp] theorem State.setI_move8xy0 (w : Word) : (s.setI w).move8xy0 = s.move8xy0 := rfl

/-! ## `State.setPc` -/

@[simp] theorem State.setPc_v (w : Word) : (s.setPc w).v = s.v := rfl
@[simp] theorem State.setPc_i (w : Word) : (s.setPc w).i = s.i := rfl
@[simp] theorem State.setPc_pc (w : Word) : (s.setPc w).pc = w := rfl
@[simp] theorem State.setPc_dt (w : Word) : (s.setPc w).dt = s.dt := rfl
@[simp] theorem State.setPc_st (w : Word) : (s.setPc w).st = s.st := rfl
@[simp] theorem State.setPc_sp (w : Word) : (s.setPc w).sp = s.sp := rfl
@[simp] theorem State.setPc_stack (w : Word) : (s.setPc w).stack = s.stack := rfl
@[simp] theorem State.setPc_mem (w : Word) : (s.setPc w).mem = s.mem := rfl
@[simp] theorem State.setPc_fb (w : Word) : (s.setPc w).fb = s.fb := rfl
@[simp] theorem State.setPc_result (w : Word) : (s.setPc w).result = s.result := rfl
@[simp] theorem State.setPc_errors (w : Word) : (s.setPc w).errors = s.errors := rfl
@[simp] theorem State.setPc_presented (w : Word) : (s.setPc w).presented = s.presented := rfl
@[simp] theorem State.setPc_input (w : Word) : (s.setPc w).input = s.input := rfl
@[simp] theorem State.setPc_schedule (w : Word) : (s.setPc w).schedule = s.schedule := rfl
@[simp] theorem State.setPc_draws (w : Word) : (s.setPc w).draws = s.draws := rfl
@[simp] theorem State.setPc_move8xy0 (w : Word) : (s.setPc w).move8xy0 = s.move8xy0 := rfl

/-! ## `State.setDt` -/

@[simp] theorem State.setDt_v (b : Byte) : (s.setDt b).v = s.v := rfl
@[simp] theorem State.setDt_i (b : Byte) : (s.setDt b).i = s.i := rfl
@[simp] theorem State.setDt_pc (b : Byte) : (s.setDt b).pc = s.pc := rfl
@[simp] theorem State.setDt_dt (b : Byte) : (s.setDt b).dt = b := rfl
@[simp] theorem State.setDt_st (b : Byte) : (s.setDt b).st = s.st := rfl
@[simp] theorem State.setDt_sp (b : Byte) : (s.setDt b).sp = s.sp := rfl
@[simp] theorem State.setDt_stack (b : Byte) : (s.setDt b).stack = s.stack := rfl
@[simp] theorem State.setDt_mem (b : Byte) : (s.setDt b).mem = s.mem := rfl
@[simp] theorem State.setDt_fb (b : Byte) : (s.setDt b).fb = s.fb := rfl
@[simp] theorem State.setDt_result (b : Byte) : (s.setDt b).result = s.result := rfl
@[simp] theorem State.setDt_errors (b : Byte) : (s.setDt b).errors = s.errors := rfl
@[simp] theorem State.setDt_presented (b : Byte) : (s.setDt b).presented = s.presented := rfl
@[simp] theorem State.setDt_input (b : Byte) : (s.setDt b).input = s.input := rfl
@[simp] theorem State.setDt_schedule (b : Byte) : (s.setDt b).schedule = s.schedule := rfl
@[simp] theorem State.setDt_draws (b : Byte) : (s.setDt b).draws = s.draws := rfl
@[simp] theorem State.setDt_move8xy0 (b : Byte) : (s.setDt b).move8xy0 = s.move8xy0 := rfl

/-! ## `State.setSt` -/

@[simp] theorem State.setSt_v (b : Byte) : (s.setSt b).v = s.v := rfl
@[simp] theorem State.setSt_i (b : Byte) : (s.setSt b).i = s.i := rfl
@[simp] theorem State.setSt_pc (b : Byte) : (s.setSt b).pc = s.pc := rfl
@[simp] theorem State.setSt_dt (b : Byte) : (s.setSt b).dt = s.dt := rfl
@[simp] theorem State.setSt_st (b : Byte) : (s.setSt b).st = b := rfl
@[simp] theorem State.setSt_sp (b : Byte) : (s.setSt b).sp = s.sp := rfl
@[simp] theorem State.setSt_stack (b : Byte) : (s.setSt b).stack = s.stack := rfl
@[simp] theorem State.setSt_mem (b : Byte) : (s.setSt b).mem = s.mem := rfl
@[simp] theorem State.setSt_fb (b : Byte) : (s.setSt b).fb = s.fb := rfl
@[simp] theorem State.setSt_result (b : Byte) : (s.setSt b).result = s.result := rfl
@[simp] theorem State.setSt_errors (b : Byte) : (s.setSt b).errors = s.errors := rfl
@[simp] theorem State.setSt_presented (b : Byte) : (s.setSt b).presented = s.presented := rfl
@[simp] theorem State.setSt_input (b : Byte) : (s.setSt b).input = s.input := rfl
@[simp] theorem State.setSt_schedule (b : Byte) : (s.setSt b).schedule = s.schedule := rfl
@[simp] theorem State.setSt_draws (b : Byte) : (s.setSt b).draws = s.draws := rfl
@[simp] theorem State.setSt_move8xy0 (b : Byte) : (s.setSt b).move8xy0 = s.move8xy0 := rfl

/-! ## `State.setSp` -/

@[simp] theorem State.setSp_v (n : Int) : (s.setSp n).v = s.v := rfl
@[simp] theorem State.setSp_i (n : Int) : (s.setSp n).i = s.i := rfl
@[simp] theorem State.setSp_pc (n : Int) : (s.setSp n).pc = s.pc := rfl
@[simp] theorem State.setSp_dt (n : Int) : (s.setSp n).dt = s.dt := rfl
@[simp] theorem State.setSp_st (n : Int) : (s.setSp n).st = s.st := rfl
@[simp] theorem State.setSp_sp (n : Int) : (s.setSp n).sp = n := rfl
@[simp] theorem State.setSp_stack (n : Int) : (s.setSp n).stack = s.stack := rfl
@[simp] theorem State.setSp_mem (n : Int) : (s.setSp n).mem = s.mem := rfl
@[simp] theorem State.setSp_fb (n : Int) : (s.setSp n).fb = s.fb := rfl
@[simp] theorem State.setSp_result (n : Int) : (s.setSp n).result = s.result := rfl
@[simp] theorem State.setSp_errors (n : Int) : (s.setSp n).errors = s.errors := rfl
@[simp] theorem State.setSp_presented (n : Int) : (s.setSp n).presented = s.presented := rfl
@[simp] theorem State.setSp_input (n : Int) : (s.setSp n).input = s.input := rfl
@[simp] theorem State.setSp_schedule (n : Int) : (s.setSp n).schedule = s.schedule := rfl
@[simp] theorem State.setSp_draws (n : Int) : (s.setSp n).draws = s.draws := rfl
@[simp] theorem State.setSp_move8xy0 (n : Int) : (s.setSp n).move8xy0 = s.move8xy0 := rfl

/-! ## `State.setSlot` -/

@[simp] theorem State.setSlot_v (j : Int) (w : Word) : (s.setSlot j w).v = s.v := rfl
@[simp] theorem State.setSlot_i (j : Int) (w : Word) : (s.setSlot j w).i = s.i := rfl
@[simp] theorem State.setSlot_pc (j : Int) (w : Word) : (s.setSlot j w).pc = s.pc := rfl
@[simp] theorem State.setSlot_dt (j : Int) (w : Word) : (s.setSlot j w).dt = s.dt := rfl
@[simp] theorem State.setSlot_st (j : Int) (w : Word) : (s.setSlot j w).st = s.st := rfl
@[simp] theorem State.setSlot_sp (j : Int) (w : Word) : (s.setSlot j w).sp = s.sp := rfl
@[simp] theorem State.setSlot_stack (j : Int) (w : Word) : (s.setSlot j w).stack = s.stack.setIfInBounds j.toNat w := rfl
@[simp] theorem State.setSlot_mem (j : Int) (w : Word) : (s.setSlot j w).mem = s.mem := rfl
@[simp] theorem State.setSlot_fb (j : Int) (w : Word) : (s.setSlot j w).fb = s.fb := rfl
@[simp] theorem State.setSlot_result (j : Int) (w : Word) : (s.setSlot j w).result = s.result := rfl
@[simp] theorem State.setSlot_errors (j : Int) (w : Word) : (s.setSlot j w).errors = s.errors := rfl
@[simp] theorem State.setSlot_presented (j : Int) (w : Word) : (s.setSlot j w).presented = s.presented := rfl
@[simp] theorem State.setSlot_input (j : Int) (w : Word) : (s.setSlot j w).input = s.input := rfl
@[simp] theorem State.setSlot_schedule (j : Int) (w : Word) : (s.setSlot j w).schedule = s.schedule := rfl
@[simp] theorem State.setSlot_draws (j : Int) (w : Word) : (s.setSlot j w).draws = s.draws := rfl
@[simp] theorem State.setSlot_move8xy0 (j : Int) (w : Word) : (s.setSlot j w).move8xy0 = s.move8xy0 := rfl

/-! ## `State.setMem` -/

@[simp] theorem State.setMem_v (m : Memory) : (s.setMem m).v = s.v := rfl
@[simp] theorem State.setMem_i (m : Memory) : (s.setMem m).i = s.i := rfl
@[simp] theorem State.setMem_pc (m : Memory) : (s.setMem m).pc = s.pc := rfl
@[simp] theorem State.setMem_dt (m : Memory) : (s.setMem m).dt = s.dt := rfl
@[simp] theorem State.setMem_st (m : Memory) : (s.setMem m).st = s.st := rfl
@[simp] theorem State.setMem_sp (m : Memory) : (s.setMem m).sp = s.sp := rfl
@[simp] theorem State.setMem_stack (m : Memory) : (s.setMem m).stack = s.stack := rfl
@[simp] theorem State.setMem_mem (m : Memory) : (s.setMem m).mem = m := rfl
@[simp] theorem State.setMem_fb (m : Memory) : (s.setMem m).fb = s.fb := rfl
@[simp] theorem State.setMem_result (m : Memory) : (s.setMem m).result = s.result := rfl
@[simp] theorem State.setMem_errors (m : Memory) : (s.setMem m).errors = s.errors := rfl
@[simp] theorem State.setMem_presented (m : Memory) : (s.setMem m).presented = s.presented := rfl
@[simp] theorem State.setMem_input (m : Memory) : (s.setMem m).input = s.input := rfl
@[simp] theorem State.setMem_schedule (m : Memory) : (s.setMem m).schedule = s.schedule := rfl
@[simp] theorem State.setMem_draws (m : Memory) : (s.setMem m).draws = s.draws := rfl
@[simp] theorem State.setMem_move8xy0 (m : Memory) : (s.setMem m).move8xy0 = s.move8xy0 := rfl

/-! ## `State.setFb` -/

@[simp] theorem State.setFb_v (f : Framebuffer) : (s.setFb f).v = s.v := rfl
@[simp] theorem State.setFb_i (f : Framebuffer) : (s.setFb f).i = s.i := rfl
@[simp] theorem State.setFb_pc (f : Framebuffer) : (s.setFb f).pc = s.pc := rfl
@[simp] theorem State.setFb_dt (f : Framebuffer) : (s.setFb f).dt = s.dt := rfl
@[simp] theorem State.setFb_st (f : Framebuffer) : (s.setFb f).st = s.st := rfl
@[simp] theorem State.setFb_sp (f : Framebuffer) : (s.setFb f).sp = s.sp := rfl
@[simp] theorem State.setFb_stack (f : Framebuffer) : (s.setFb f).stack = s.stack := rfl
@[simp] theorem State.setFb_mem (f : Framebuffer) : (s.setFb f).mem = s.mem := rfl
@[simp] theorem State.setFb_fb (f : Framebuffer) : (s.setFb f).fb = f := rfl
@[simp] theorem State.setFb_result (f : Framebuffer) : (s.setFb f).result = s.result := rfl
@[simp] theorem State.setFb_errors (f : Framebuffer) : (s.setFb f).errors = s.errors := rfl
@[simp] theorem State.setFb_presented (f : Framebuffer) : (s.setFb f).presented = s.presented := rfl
@[simp] theorem State.setFb_input (f : Framebuffer) : (s.setFb f).input = s.input := rfl
@[simp] theorem State.setFb_schedule (f : Framebuffer) : (s.setFb f).schedule = s.schedule := rfl
@[simp] theorem State.setFb_draws (f : Framebuffer) : (s.setFb f).draws = s.draws := rfl
@[simp] theorem State.setFb_move8xy0 (f : Framebuffer) : (s.setFb f).move8xy0 = s.move8xy0 := rfl

/-! ## `State.setResult` -/

@[simp] theorem State.setResult_v (r : HandlerResult) : (s.setResult r).v = s.v := rfl
@[simp] theorem State.setResult_i (r : HandlerResult) : (s.setResult r).i = s.i := rfl
@[simp] theorem State.setResult_pc (r : HandlerResult) : (s.setResult r).pc = s.pc := rfl
@[simp] theorem State.setResult_dt (r : HandlerResult) : (s.setResult r).dt = s.dt := rfl
@[simp] theorem State.setResult_st (r : HandlerResult) : (s.setResult r).st = s.st := rfl
@[simp] theorem State.setResult_sp (r : HandlerResult) : (s.setResult r).sp = s.sp := rfl
@[simp] theorem State.setResult_stack (r : HandlerResult) : (s.setResult r).stack = s.stack := rfl
@[simp] theorem State.setResult_mem (r : HandlerResult) : (s.setResult r).mem = s.mem := rfl
@[simp] theorem State.setResult_fb (r : HandlerResult) : (s.setResult r).fb = s.fb := rfl
@[simp] theorem State.setResult_result (r : HandlerResult) : (s.setResult r).result = r := rfl
@[simp] theorem State.setResult_errors (r : HandlerResult) : (s.setResult r).errors = s.errors := rfl
@[simp] theorem State.setResult_presented (r : HandlerResult) : (s.setResult r).presented = s.presented := rfl
@[simp] theorem State.setResult_input (r : HandlerResult) : (s.setResult r).input = s.input := rfl
@[simp] theorem State.setResult_schedule (r : HandlerResult) : (s.setResult r).schedule = s.schedule := rfl
@[simp] theorem State.setResult_draws (r : HandlerResult) : (s.setResult r).draws = s.draws := rfl
@[simp] theorem State.setResult_move8xy0 (r : HandlerResult) : (s.setResult r).move8xy0 = s.move8xy0 := rfl

/-! ## `State.setErrors` -/

@[simp] theorem State.setErrors_v (es : List ErrorRecord) : (s.setErrors es).v = s.v := rfl
@[simp] theorem State.setErrors_i (es : List ErrorRecord) : (s.setErrors es).i = s.i := rfl
@[simp] theorem State.setErrors_pc (es : List ErrorRecord) : (s.setErrors es).pc = s.pc := rfl
@[simp] theorem State.setErrors_dt (es : List ErrorRecord) : (s.setErrors es).dt = s.dt := rfl
@[simp] theorem State.setErrors_st (es : List ErrorRecord) : (s.setErrors es).st = s.st := rfl
@[simp] theorem State.setErrors_sp (es : List ErrorRecord) : (s.setErrors es).sp = s.sp := rfl
@[simp] theorem State.setErrors_stack (es : List ErrorRecord) : (s.setErrors es).stack = s.stack := rfl
@[simp] theorem State.setErrors_mem (es : List ErrorRecord) : (s.setErrors es).mem = s.mem := rfl
@[simp] theorem State.setErrors_fb (es : List ErrorRecord) : (s.setErrors es).fb = s.fb := rfl
@[simp] theorem State.setErrors_result (es : List ErrorRecord) : (s.setErrors es).result = s.result := rfl
@[simp] theorem State.setErrors_errors (es : List ErrorRecord) : (s.setErrors es).errors = es := rfl
@[simp] theorem State.setErrors_presented (es : List ErrorRecord) : (s.setErrors es).presented = s.presented := rfl
@[simp] theorem State.setErrors_input (es : List ErrorRecord) : (s.setErrors es).input = s.input := rfl
@[simp] theorem State.setErrors_schedule (es : List ErrorRecord) : (s.setErrors es).schedule = s.schedule := rfl
@[simp] theorem State.setErrors_draws (es : List ErrorRecord) : (s.setErrors es).draws = s.draws := rfl
@[simp] theorem State.setErrors_move8xy0 (es : List ErrorRecord) : (s.setErrors es).move8xy0 = s.move8xy0 := rfl

/-! ## `State.setPresented` -/

@[simp] theorem State.setPresented_v (fs : List Framebuffer) : (s.setPresented fs).v = s.v := rfl
@[simp] theorem State.setPresented_i (fs : List Framebuffer) : (s.setPresented fs).i = s.i := rfl
@[simp] theorem State.setPresented_pc (fs : List Framebuffer) : (s.setPresented fs).pc = s.pc := rfl
@[simp] theorem State.setPresented_dt (fs : List Framebuffer) : (s.setPresented fs).dt = s.dt := rfl
@[simp] theorem State.setPresented_st (fs : List Framebuffer) : (s.setPresented fs).st = s.st := rfl
@[simp] theorem State.setPresented_sp (fs : List Framebuffer) : (s.setPresented fs).sp = s.sp := rfl
@[simp] theorem State.setPresented_stack (fs : List Framebuffer) : (s.setPresented fs).stack = s.stack := rfl
@[simp] theorem State.setPresented_mem (fs : List Framebuffer) : (s.setPresented fs).mem = s.mem := rfl
@[simp] theorem State.setPresented_fb (fs : List Framebuffer) : (s.setPresented fs).fb = s.fb := rfl
@[simp] theorem State.setPresented_result (fs : List Framebuffer) : (s.setPresented fs).result = s.result := rfl
@[simp] theorem State.setPresented_errors (fs : List Framebuffer) : (s.setPresented fs).errors = s.errors := rfl
@[simp] theorem State.setPresented_presented (fs : List Framebuffer) : (s.setPresented fs).presented = fs := rfl
@[simp] theorem State.setPresented_input (fs : List Framebuffer) : (s.setPresented fs).input = s.input := rfl
@[simp] theorem State.setPresented_schedule (fs : List Framebuffer) : (s.setPresented fs).schedule = s.schedule := rfl
@[simp] theorem State.setPresented_draws (fs : List Framebuffer) : (s.setPresented fs).draws = s.draws := rfl
@[simp] theorem State.setPresented_move8xy0 (fs : List Framebuffer) : (s.setPresented fs).move8xy0 = s.move8xy0 := rfl

/-! ## `State.setInput` -/

@[simp] theorem State.setInput_v (inp : StepInput) : (s.setInput inp).v = s.v := rfl
@[simp] theorem State.setInput_i (inp : StepInput) : (s.setInput inp).i = s.i := rfl
@[simp] theorem State.setInput_pc (inp : StepInput) : (s.setInput inp).pc = s.pc := rfl
@[simp] theorem State.setInput_dt (inp : StepInput) : (s.setInput inp).dt = s.dt := rfl
@[simp] theorem State.setInput_st (inp : StepInput) : (s.setInput inp).st = s.st := rfl
@[simp] theorem State.setInput_sp (inp : StepInput) : (s.setInput inp).sp = s.sp := rfl
@[simp] theorem State.setInput_stack (inp : StepInput) : (s.setInput inp).stack = s.stack := rfl
@[simp] theorem State.setInput_mem (inp : StepInput) : (s.setInput inp).mem = s.mem := rfl
@[simp] theorem State.setInput_fb (inp : StepInput) : (s.setInput inp).fb = s.fb := rfl
@[simp] theorem State.setInput_result (inp : StepInput) : (s.setInput inp).result = s.result := rfl
@[simp] theorem State.setInput_errors (inp : StepInput) : (s.setInput inp).errors = s.errors := rfl
@[simp] theorem State.setInput_presented (inp : StepInput) : (s.setInput inp).presented = s.presented := rfl
@[simp] theorem State.setInput_input (inp : StepInput) : (s.setInput inp).input = inp := rfl
@[simp] theorem State.setInput_schedule (inp : StepInput) : (s.setInput inp).schedule = s.schedule := rfl
@[simp] theorem State.setInput_draws (inp : StepInput) : (s.setInput inp).draws = s.draws := rfl
@[simp] theorem State.setInput_move8xy0 (inp : StepInput) : (s.setInput inp).move8xy0 = s.move8xy0 := rfl

/-! ## `State.setSchedule` -/

@[simp] theorem State.setSchedule_v (acts : List HostAct) : (s.setSchedule acts).v = s.v := rfl
@[simp] theorem State.setSchedule_i (acts : List HostAct) : (s.setSchedule acts).i = s.i := rfl
@[simp] theorem State.setSchedule_pc (acts : List HostAct) : (s.setSchedule acts).pc = s.pc := rfl
@[simp] theorem State.setSchedule_dt (acts : List HostAct) : (s.setSchedule acts).dt = s.dt := rfl
@[simp] theorem State.setSchedule_st (acts : List HostAct) : (s.setSchedule acts).st = s.st := rfl
@[simp] theorem State.setSchedule_sp (acts : List HostAct) : (s.setSchedule acts).sp = s.sp := rfl
@[simp] theorem State.setSchedule_stack (acts : List HostAct) : (s.setSchedule acts).stack = s.stack := rfl
@[simp] theorem State.setSchedule_mem (acts : List HostAct) : (s.setSchedule acts).mem = s.mem := rfl
@[simp] theorem State.setSchedule_fb (acts : List HostAct) : (s.setSchedule acts).fb = s.fb := rfl
@[simp] theorem State.setSchedule_result (acts : List HostAct) : (s.setSchedule acts).result = s.result := rfl
@[simp] theorem State.setSchedule_errors (acts : List HostAct) : (s.setSchedule acts).errors = s.errors := rfl
@[simp] theorem State.setSchedule_presented (acts : List HostAct) : (s.setSchedule acts).presented = s.presented := rfl
@[simp] theorem State.setSchedule_input (acts : List HostAct) : (s.setSchedule acts).input = s.input := rfl
@[simp] theorem State.setSchedule_schedule (acts : List HostAct) : (s.setSchedule acts).schedule = acts := rfl
@[simp] theorem State.setSchedule_draws (acts : List HostAct) : (s.setSchedule acts).draws = s.draws := rfl
@[simp] theorem State.setSchedule_move8xy0 (acts : List HostAct) : (s.setSchedule acts).move8xy0 = s.move8xy0 := rfl

/-! ## `State.setDraws` -/

@[simp] theorem State.setDraws_v (n : Nat) : (s.setDraws n).v = s.v := rfl
@[simp] theorem State.setDraws_i (n : Nat) : (s.setDraws n).i = s.i := rfl
@[simp] theorem State.setDraws_pc (n : Nat) : (s.setDraws n).pc = s.pc := rfl
@[simp] theorem State.setDraws_dt (n : Nat) : (s.setDraws n).dt = s.dt := rfl
@[simp] theorem State.setDraws_st (n : Nat) : (s.setDraws n).st = s.st := rfl
@[simp] theorem State.setDraws_sp (n : Nat) : (s.setDraws n).sp = s.sp := rfl
@[simp] theorem State.setDraws_stack (n : Nat) : (s.setDraws n).stack = s.stack := rfl
@[simp] theorem State.setDraws_mem (n : Nat) : (s.setDraws n).mem = s.mem := rfl
@[simp] theorem State.setDraws_fb (n : Nat) : (s.setDraws n).fb = s.fb := rfl
@[simp] theorem State.setDraws_result (n : Nat) : (s.setDraws n).result = s.result := rfl
@[simp] theorem State.setDraws_errors (n : Nat) : (s.setDraws n).errors = s.errors := rfl
@[simp] theorem State.setDraws_presented (n : Nat) : (s.setDraws n).presented = s.presented := rfl
@[simp] theorem State.setDraws_input (n : Nat) : (s.setDraws n).input = s.input := rfl
@[simp] theorem State.setDraws_schedule (n : Nat) : (s.setDraws n).schedule = s.schedule := rfl
@[simp] theorem State.setDraws_draws (n : Nat) : (s.setDraws n).draws = n := rfl
@[simp] theorem State.setDraws_move8xy0 (n : Nat) : (s.setDraws n).move8xy0 = s.move8xy0 := rfl

end Sys2Proof.Machine
end

