-- ==== Sys2Proof/Laws/Store.lean ====
section
/-! SUPPORT. The laws of the store: a read after a write, for any two addresses, and the canonical form kept by every
operation. -/

namespace Sys2Proof.Machine

theorem Memory.read_forget (m : Memory) (a b : Nat) :
    (m.forget a).read b = if b = a then unlisted a else m.read b := by
  induction m with
  | nil => by_cases h : b = a <;> simp [Memory.forget, Memory.read, h]
  | cons c m ih =>
    obtain ⟨k, w⟩ := c
    have hf : Memory.forget ((k, w) :: m) a = if k = a then Memory.forget m a else (k, w) :: Memory.forget m a := by
      by_cases hk : k = a <;> simp [Memory.forget, hk]
    rw [hf]
    by_cases hk : k = a
    · rw [if_pos hk, ih]
      by_cases hb : b = a
      · simp [hb]
      · have : b ≠ k := fun h => hb (h.trans hk)
        simp [hb, Memory.read, this]
    · rw [if_neg hk]
      by_cases hb : b = k
      · have : b ≠ a := fun h => hk (hb.symm.trans h)
        simp [Memory.read, hb, hk]
      · simp [Memory.read, hb, ih]

/-- The address is not listed. -/
def Memory.lacks (m : Memory) (a : Nat) : Prop := ∀ c ∈ m, c.1 ≠ a

theorem Memory.forget_lacks (m : Memory) (a : Nat) : (m.forget a).lacks a := by
  intro c hc
  simpa [Memory.forget] using (List.mem_filter.mp hc).2

theorem Memory.read_place (m : Memory) (a b : Nat) (x : Byte) (h : m.lacks a) :
    (m.place a x).read b = if b = a then x else m.read b := by
  induction m with
  | nil => simp [Memory.place, Memory.read]
  | cons c m ih =>
    obtain ⟨k, w⟩ := c
    have hk : k ≠ a := h (k, w) (by simp)
    have hm : Memory.lacks m a := fun d hd => h d (by simp [hd])
    by_cases hlt : a < k
    · simp [Memory.place, hlt, Memory.read]
    · by_cases hb : b = k
      · simp [Memory.place, hlt, Memory.read, hb, hk]
      · simp [Memory.place, hlt, Memory.read, hb, ih hm]

/-- A read after a write: the written address gives the value, every other address what it gave before. -/
theorem Memory.read_write (m : Memory) (a b : Nat) (x : Byte) :
    (m.write a x).read b = if b = a then x else m.read b := by
  unfold Memory.write
  split
  · next h => rw [Memory.read_forget, h]
  · rw [Memory.read_place _ _ _ _ (m.forget_lacks a), Memory.read_forget]
    by_cases hb : b = a <;> simp [hb]

@[simp] theorem Memory.wfFrom_nil (lo : Nat) : Memory.wfFrom lo [] = true := rfl

theorem Memory.wfFrom_cons (lo a : Nat) (x : Byte) (m : Memory) :
    Memory.wfFrom lo ((a, x) :: m) = true ↔
      lo ≤ a ∧ a < Config.storeSize ∧ x ≠ unlisted a ∧ m.wfFrom (a + 1) = true := by
  simp [Memory.wfFrom, and_assoc]

theorem Memory.wfFrom_mono {m : Memory} {lo lo' : Nat} (hl : lo' ≤ lo) (h : m.wfFrom lo = true) : m.wfFrom lo' = true := by
  cases m with
  | nil => rfl
  | cons c m =>
    obtain ⟨a, x⟩ := c
    rw [Memory.wfFrom_cons] at h ⊢
    exact ⟨hl.trans h.1, h.2⟩

theorem Memory.wfFrom_forget {m : Memory} (a : Nat) : ∀ {lo : Nat}, m.wfFrom lo = true → (m.forget a).wfFrom lo = true := by
  induction m with
  | nil => intro lo _; rfl
  | cons c m ih =>
    intro lo h
    obtain ⟨k, w⟩ := c
    rw [Memory.wfFrom_cons] at h
    by_cases hk : k = a
    · have : Memory.forget ((k, w) :: m) a = Memory.forget m a := by simp [Memory.forget, hk]
      rw [this]
      exact Memory.wfFrom_mono (by omega) (ih h.2.2.2)
    · have : Memory.forget ((k, w) :: m) a = (k, w) :: Memory.forget m a := by simp [Memory.forget, hk]
      rw [this, Memory.wfFrom_cons]
      exact ⟨h.1, h.2.1, h.2.2.1, ih h.2.2.2⟩

theorem Memory.wfFrom_place {m : Memory} {a : Nat} {x : Byte} (ha : a < Config.storeSize) (hx : x ≠ unlisted a) :
    ∀ {lo : Nat}, lo ≤ a → m.lacks a → m.wfFrom lo = true → (m.place a x).wfFrom lo = true := by
  induction m with
  | nil =>
    intro lo hlo _ _
    simp [Memory.place, Memory.wfFrom_cons, hlo, ha, hx]
  | cons c m ih =>
    intro lo hlo hm h
    obtain ⟨k, w⟩ := c
    rw [Memory.wfFrom_cons] at h
    have hk : k ≠ a := hm (k, w) (by simp)
    by_cases hlt : a < k
    · simp only [Memory.place, hlt, if_true, Memory.wfFrom_cons]
      exact ⟨hlo, ha, hx, by omega, h.2.1, h.2.2.1, h.2.2.2⟩
    · simp only [Memory.place, hlt, if_false, Memory.wfFrom_cons]
      exact ⟨h.1, h.2.1, h.2.2.1, ih (by omega) (fun d hd => hm d (by simp [hd])) h.2.2.2⟩

/-- A write inside the store keeps the canonical form. -/
theorem Memory.wf_write {m : Memory} {a : Nat} (x : Byte) (ha : a < Config.storeSize) (h : m.wf = true) :
    (m.write a x).wf = true := by
  unfold Memory.write
  split
  · exact Memory.wfFrom_forget a h
  · next hx => exact Memory.wfFrom_place ha hx (Nat.zero_le _) (m.forget_lacks a) (Memory.wfFrom_forget a h)

/-- The cells `Memory.ofFn` lists for a range of addresses. -/
theorem Memory.wfFrom_cells (f : Nat → Byte) (n : Nat) : ∀ lo : Nat, lo + n ≤ Config.storeSize →
    Memory.wfFrom lo ((List.range' lo n).filterMap (fun a => if f a = unlisted a then none else some (a, f a))) = true := by
  induction n with
  | zero => intro lo _; rfl
  | succ n ih =>
    intro lo h
    rw [List.range'_succ, List.filterMap_cons]
    by_cases hf : f lo = unlisted lo
    · simpa [hf] using Memory.wfFrom_mono (Nat.le_succ lo) (ih (lo + 1) (by omega))
    · simp only [hf, if_false, Memory.wfFrom_cons]
      exact ⟨le_refl _, by omega, hf, ih (lo + 1) (by omega)⟩

/-- The store given by a function is in the canonical form. -/
theorem Memory.wf_ofFn (f : Nat → Byte) : (Memory.ofFn f).wf = true := by
  have := Memory.wfFrom_cells f Config.storeSize 0 (by omega)
  rwa [← List.range_eq_range'] at this

theorem Memory.read_cells (f : Nat → Byte) (n b : Nat) : ∀ lo : Nat,
    Memory.read ((List.range' lo n).filterMap (fun a => if f a = unlisted a then none else some (a, f a))) b =
      if lo ≤ b ∧ b < lo + n then f b else unlisted b := by
  induction n with
  | zero => intro lo; simp [Memory.read]
  | succ n ih =>
    intro lo
    rw [List.range'_succ, List.filterMap_cons]
    by_cases hf : f lo = unlisted lo
    · simp only [hf, if_true, ih]
      by_cases hb : b = lo
      · subst hb; simp [hf]
      · have : (lo + 1 ≤ b ∧ b < lo + 1 + n) ↔ (lo ≤ b ∧ b < lo + (n + 1)) := by omega
        simp only [this]
    · simp only [hf, if_false, Memory.read, ih]
      by_cases hb : b = lo
      · subst hb; simp
      · have : (lo + 1 ≤ b ∧ b < lo + 1 + n) ↔ (lo ≤ b ∧ b < lo + (n + 1)) := by omega
        simp only [this, hb, if_false]

/-- The store given by a function reads as the function at every address of the store. -/
theorem Memory.read_ofFn (f : Nat → Byte) {b : Nat} (h : b < Config.storeSize) : (Memory.ofFn f).read b = f b := by
  have := Memory.read_cells f Config.storeSize b 0
  rw [← List.range_eq_range', Nat.zero_add, if_pos ⟨Nat.zero_le b, h⟩] at this
  exact this

end Sys2Proof.Machine
end

