-- ==== Sys2Proof/Laws/Ops.lean ====
section
/-! SUPPORT. What each shared operation does, said once: the reads through `reg`, `slot` and `readByte` after every update,
and every field after `report`, `advance`, `skipIf`, `rewind`, `memRead`, `memWrite`, `setFlag` and `setWithFlag`. -/

namespace Sys2Proof.Machine

variable (s : State)

/-! ## Registers -/

theorem State.reg_setReg (r q : Reg) (b : Byte) : (s.setReg r b).reg q = if q = r then b else s.reg q := by
  have h : r.toNat = q.toNat ↔ q = r := by rw [eq_comm, BitVec.toNat_inj]
  simp only [State.reg, State.setReg_v, Vector.getElem_set, h]

@[simp] theorem State.reg_setReg_self (r : Reg) (b : Byte) : (s.setReg r b).reg r = b := by
  simp [State.reg_setReg]

theorem State.reg_setReg_ne {r q : Reg} (b : Byte) (h : q ≠ r) : (s.setReg r b).reg q = s.reg q := by
  simp [State.reg_setReg, h]

@[simp] theorem State.setI_reg (w : Word) (q : Reg) : (s.setI w).reg q = s.reg q := rfl
@[simp] theorem State.setPc_reg (w : Word) (q : Reg) : (s.setPc w).reg q = s.reg q := rfl
@[simp] theorem State.setDt_reg (b : Byte) (q : Reg) : (s.setDt b).reg q = s.reg q := rfl
@[simp] theorem State.setSt_reg (b : Byte) (q : Reg) : (s.setSt b).reg q = s.reg q := rfl
@[simp] theorem State.setSp_reg (n : Int) (q : Reg) : (s.setSp n).reg q = s.reg q := rfl
@[simp] theorem State.setSlot_reg (j : Int) (w : Word) (q : Reg) : (s.setSlot j w).reg q = s.reg q := rfl
@[simp] theorem State.setMem_reg (m : Memory) (q : Reg) : (s.setMem m).reg q = s.reg q := rfl
@[simp] theorem State.setFb_reg (f : Framebuffer) (q : Reg) : (s.setFb f).reg q = s.reg q := rfl
@[simp] theorem State.setResult_reg (r : HandlerResult) (q : Reg) : (s.setResult r).reg q = s.reg q := rfl
@[simp] theorem State.setErrors_reg (es : List ErrorRecord) (q : Reg) : (s.setErrors es).reg q = s.reg q := rfl
@[simp] theorem State.setPresented_reg (fs : List Framebuffer) (q : Reg) : (s.setPresented fs).reg q = s.reg q := rfl
@[simp] theorem State.setInput_reg (inp : StepInput) (q : Reg) : (s.setInput inp).reg q = s.reg q := rfl
@[simp] theorem State.setSchedule_reg (acts : List HostAct) (q : Reg) : (s.setSchedule acts).reg q = s.reg q := rfl
@[simp] theorem State.setDraws_reg (n : Nat) (q : Reg) : (s.setDraws n).reg q = s.reg q := rfl

/-! ## Bytes of the store -/

@[simp] theorem State.setReg_readByte (r : Reg) (b : Byte) (k : Nat) : (s.setReg r b).readByte k = s.readByte k := rfl
@[simp] theorem State.setI_readByte (w : Word) (k : Nat) : (s.setI w).readByte k = s.readByte k := rfl
@[simp] theorem State.setPc_readByte (w : Word) (k : Nat) : (s.setPc w).readByte k = s.readByte k := rfl
@[simp] theorem State.setDt_readByte (b : Byte) (k : Nat) : (s.setDt b).readByte k = s.readByte k := rfl
@[simp] theorem State.setSt_readByte (b : Byte) (k : Nat) : (s.setSt b).readByte k = s.readByte k := rfl
@[simp] theorem State.setSp_readByte (n : Int) (k : Nat) : (s.setSp n).readByte k = s.readByte k := rfl
@[simp] theorem State.setSlot_readByte (j : Int) (w : Word) (k : Nat) : (s.setSlot j w).readByte k = s.readByte k := rfl
@[simp] theorem State.setFb_readByte (f : Framebuffer) (k : Nat) : (s.setFb f).readByte k = s.readByte k := rfl
@[simp] theorem State.setResult_readByte (r : HandlerResult) (k : Nat) : (s.setResult r).readByte k = s.readByte k := rfl
@[simp] theorem State.setErrors_readByte (es : List ErrorRecord) (k : Nat) : (s.setErrors es).readByte k = s.readByte k := rfl
@[simp] theorem State.setPresented_readByte (fs : List Framebuffer) (k : Nat) : (s.setPresented fs).readByte k = s.readByte k := rfl
@[simp] theorem State.setInput_readByte (inp : StepInput) (k : Nat) : (s.setInput inp).readByte k = s.readByte k := rfl
@[simp] theorem State.setSchedule_readByte (acts : List HostAct) (k : Nat) : (s.setSchedule acts).readByte k = s.readByte k := rfl
@[simp] theorem State.setDraws_readByte (n : Nat) (k : Nat) : (s.setDraws n).readByte k = s.readByte k := rfl

/-! ## Stack slots -/

@[simp] theorem State.setReg_slot (r : Reg) (b : Byte) (k : Int) : (s.setReg r b).slot k = s.slot k := rfl
@[simp] theorem State.setI_slot (w : Word) (k : Int) : (s.setI w).slot k = s.slot k := rfl
@[simp] theorem State.setPc_slot (w : Word) (k : Int) : (s.setPc w).slot k = s.slot k := rfl
@[simp] theorem State.setDt_slot (b : Byte) (k : Int) : (s.setDt b).slot k = s.slot k := rfl
@[simp] theorem State.setSt_slot (b : Byte) (k : Int) : (s.setSt b).slot k = s.slot k := rfl
@[simp] theorem State.setSp_slot (n : Int) (k : Int) : (s.setSp n).slot k = s.slot k := rfl
@[simp] theorem State.setMem_slot (m : Memory) (k : Int) : (s.setMem m).slot k = s.slot k := rfl
@[simp] theorem State.setFb_slot (f : Framebuffer) (k : Int) : (s.setFb f).slot k = s.slot k := rfl
@[simp] theorem State.setResult_slot (r : HandlerResult) (k : Int) : (s.setResult r).slot k = s.slot k := rfl
@[simp] theorem State.setErrors_slot (es : List ErrorRecord) (k : Int) : (s.setErrors es).slot k = s.slot k := rfl
@[simp] theorem State.setPresented_slot (fs : List Framebuffer) (k : Int) : (s.setPresented fs).slot k = s.slot k := rfl
@[simp] theorem State.setInput_slot (inp : StepInput) (k : Int) : (s.setInput inp).slot k = s.slot k := rfl
@[simp] theorem State.setSchedule_slot (acts : List HostAct) (k : Int) : (s.setSchedule acts).slot k = s.slot k := rfl
@[simp] theorem State.setDraws_slot (n : Nat) (k : Int) : (s.setDraws n).slot k = s.slot k := rfl

/-- A slot after a slot was written, both named by a legal stack pointer. -/
theorem State.slot_setSlot {j k : Int} (w : Word) (hj : 0 ≤ j ∧ j ≤ 15) (hk : 0 ≤ k) :
    (s.setSlot j w).slot k = if k = j then w else s.slot k := by
  have h : j.toNat < 16 := by omega
  by_cases hkj : k = j
  · subst hkj
    simp [State.slot, h]
  · have : j.toNat ≠ k.toNat := by omega
    simp [State.slot, hkj, Vector.getElem?_setIfInBounds_ne this]

/-! ## Effective addresses -/

@[simp] theorem State.setReg_ea (r : Reg) (b : Byte) (k : Nat) : (s.setReg r b).ea k = s.ea k := rfl
@[simp] theorem State.setPc_ea (w : Word) (k : Nat) : (s.setPc w).ea k = s.ea k := rfl
@[simp] theorem State.setDt_ea (b : Byte) (k : Nat) : (s.setDt b).ea k = s.ea k := rfl
@[simp] theorem State.setSt_ea (b : Byte) (k : Nat) : (s.setSt b).ea k = s.ea k := rfl
@[simp] theorem State.setSp_ea (n : Int) (k : Nat) : (s.setSp n).ea k = s.ea k := rfl
@[simp] theorem State.setSlot_ea (j : Int) (w : Word) (k : Nat) : (s.setSlot j w).ea k = s.ea k := rfl
@[simp] theorem State.setMem_ea (m : Memory) (k : Nat) : (s.setMem m).ea k = s.ea k := rfl
@[simp] theorem State.setFb_ea (f : Framebuffer) (k : Nat) : (s.setFb f).ea k = s.ea k := rfl
@[simp] theorem State.setResult_ea (r : HandlerResult) (k : Nat) : (s.setResult r).ea k = s.ea k := rfl
@[simp] theorem State.setErrors_ea (es : List ErrorRecord) (k : Nat) : (s.setErrors es).ea k = s.ea k := rfl
@[simp] theorem State.setPresented_ea (fs : List Framebuffer) (k : Nat) : (s.setPresented fs).ea k = s.ea k := rfl
@[simp] theorem State.setInput_ea (inp : StepInput) (k : Nat) : (s.setInput inp).ea k = s.ea k := rfl
@[simp] theorem State.setSchedule_ea (acts : List HostAct) (k : Nat) : (s.setSchedule acts).ea k = s.ea k := rfl
@[simp] theorem State.setDraws_ea (n : Nat) (k : Nat) : (s.setDraws n).ea k = s.ea k := rfl

/-! ## `State.report` -/

@[simp] theorem State.report_v (e : ErrorRecord) : (s.report e).v = s.v := rfl
@[simp] theorem State.report_i (e : ErrorRecord) : (s.report e).i = s.i := rfl
@[simp] theorem State.report_pc (e : ErrorRecord) : (s.report e).pc = s.pc := rfl
@[simp] theorem State.report_dt (e : ErrorRecord) : (s.report e).dt = s.dt := rfl
@[simp] theorem State.report_st (e : ErrorRecord) : (s.report e).st = s.st := rfl
@[simp] theorem State.report_sp (e : ErrorRecord) : (s.report e).sp = s.sp := rfl
@[simp] theorem State.report_stack (e : ErrorRecord) : (s.report e).stack = s.stack := rfl
@[simp] theorem State.report_mem (e : ErrorRecord) : (s.report e).mem = s.mem := rfl
@[simp] theorem State.report_fb (e : ErrorRecord) : (s.report e).fb = s.fb := rfl
@[simp] theorem State.report_result (e : ErrorRecord) : (s.report e).result = s.result := rfl
@[simp] theorem State.report_errors (e : ErrorRecord) : (s.report e).errors = s.errors ++ [e] := rfl
@[simp] theorem State.report_presented (e : ErrorRecord) : (s.report e).presented = s.presented := rfl
@[simp] theorem State.report_input (e : ErrorRecord) : (s.report e).input = s.input := rfl
@[simp] theorem State.report_schedule (e : ErrorRecord) : (s.report e).schedule = s.schedule := rfl
@[simp] theorem State.report_draws (e : ErrorRecord) : (s.report e).draws = s.draws := rfl
@[simp] theorem State.report_move8xy0 (e : ErrorRecord) : (s.report e).move8xy0 = s.move8xy0 := rfl
@[simp] theorem State.report_reg (e : ErrorRecord) (q : Reg) : (s.report e).reg q = s.reg q := rfl
@[simp] theorem State.report_readByte (e : ErrorRecord) (k : Nat) : (s.report e).readByte k = s.readByte k := rfl
@[simp] theorem State.report_slot (e : ErrorRecord) (k : Int) : (s.report e).slot k = s.slot k := rfl
@[simp] theorem State.report_ea (e : ErrorRecord) (k : Nat) : (s.report e).ea k = s.ea k := rfl

/-! ## `State.advance` -/

@[simp] theorem State.advance_v : (s.advance).v = s.v := rfl
@[simp] theorem State.advance_i : (s.advance).i = s.i := rfl
@[simp] theorem State.advance_pc : (s.advance).pc = s.pc + 2 := rfl
@[simp] theorem State.advance_dt : (s.advance).dt = s.dt := rfl
@[simp] theorem State.advance_st : (s.advance).st = s.st := rfl
@[simp] theorem State.advance_sp : (s.advance).sp = s.sp := rfl
@[simp] theorem State.advance_stack : (s.advance).stack = s.stack := rfl
@[simp] theorem State.advance_mem : (s.advance).mem = s.mem := rfl
@[simp] theorem State.advance_fb : (s.advance).fb = s.fb := rfl
@[simp] theorem State.advance_result : (s.advance).result = s.result := rfl
@[simp] theorem State.advance_errors : (s.advance).errors = s.errors := rfl
@[simp] theorem State.advance_presented : (s.advance).presented = s.presented := rfl
@[simp] theorem State.advance_input : (s.advance).input = s.input := rfl
@[simp] theorem State.advance_schedule : (s.advance).schedule = s.schedule := rfl
@[simp] theorem State.advance_draws : (s.advance).draws = s.draws := rfl
@[simp] theorem State.advance_move8xy0 : (s.advance).move8xy0 = s.move8xy0 := rfl
@[simp] theorem State.advance_reg (q : Reg) : (s.advance).reg q = s.reg q := rfl
@[simp] theorem State.advance_readByte (k : Nat) : (s.advance).readByte k = s.readByte k := rfl
@[simp] theorem State.advance_slot (k : Int) : (s.advance).slot k = s.slot k := rfl
@[simp] theorem State.advance_ea (k : Nat) : (s.advance).ea k = s.ea k := rfl

/-! ## `State.rewind` -/

@[simp] theorem State.rewind_v : (s.rewind).v = s.v := rfl
@[simp] theorem State.rewind_i : (s.rewind).i = s.i := rfl
@[simp] theorem State.rewind_pc : (s.rewind).pc = s.pc - 2 := rfl
@[simp] theorem State.rewind_dt : (s.rewind).dt = s.dt := rfl
@[simp] theorem State.rewind_st : (s.rewind).st = s.st := rfl
@[simp] theorem State.rewind_sp : (s.rewind).sp = s.sp := rfl
@[simp] theorem State.rewind_stack : (s.rewind).stack = s.stack := rfl
@[simp] theorem State.rewind_mem : (s.rewind).mem = s.mem := rfl
@[simp] theorem State.rewind_fb : (s.rewind).fb = s.fb := rfl
@[simp] theorem State.rewind_result : (s.rewind).result = s.result := rfl
@[simp] theorem State.rewind_errors : (s.rewind).errors = s.errors := rfl
@[simp] theorem State.rewind_presented : (s.rewind).presented = s.presented := rfl
@[simp] theorem State.rewind_input : (s.rewind).input = s.input := rfl
@[simp] theorem State.rewind_schedule : (s.rewind).schedule = s.schedule := rfl
@[simp] theorem State.rewind_draws : (s.rewind).draws = s.draws := rfl
@[simp] theorem State.rewind_move8xy0 : (s.rewind).move8xy0 = s.move8xy0 := rfl
@[simp] theorem State.rewind_reg (q : Reg) : (s.rewind).reg q = s.reg q := rfl
@[simp] theorem State.rewind_readByte (k : Nat) : (s.rewind).readByte k = s.readByte k := rfl
@[simp] theorem State.rewind_slot (k : Int) : (s.rewind).slot k = s.slot k := rfl
@[simp] theorem State.rewind_ea (k : Nat) : (s.rewind).ea k = s.ea k := rfl

/-! ## `State.skipIf` -/

@[simp] theorem State.skipIf_v (c : Bool) : (s.skipIf c).v = s.v := by cases c <;> rfl
@[simp] theorem State.skipIf_i (c : Bool) : (s.skipIf c).i = s.i := by cases c <;> rfl
@[simp] theorem State.skipIf_pc (c : Bool) : (s.skipIf c).pc = if c then s.pc + 2 else s.pc := by cases c <;> rfl
@[simp] theorem State.skipIf_dt (c : Bool) : (s.skipIf c).dt = s.dt := by cases c <;> rfl
@[simp] theorem State.skipIf_st (c : Bool) : (s.skipIf c).st = s.st := by cases c <;> rfl
@[simp] theorem State.skipIf_sp (c : Bool) : (s.skipIf c).sp = s.sp := by cases c <;> rfl
@[simp] theorem State.skipIf_stack (c : Bool) : (s.skipIf c).stack = s.stack := by cases c <;> rfl
@[simp] theorem State.skipIf_mem (c : Bool) : (s.skipIf c).mem = s.mem := by cases c <;> rfl
@[simp] theorem State.skipIf_fb (c : Bool) : (s.skipIf c).fb = s.fb := by cases c <;> rfl
@[simp] theorem State.skipIf_result (c : Bool) : (s.skipIf c).result = s.result := by cases c <;> rfl
@[simp] theorem State.skipIf_errors (c : Bool) : (s.skipIf c).errors = s.errors := by cases c <;> rfl
@[simp] theorem State.skipIf_presented (c : Bool) : (s.skipIf c).presented = s.presented := by cases c <;> rfl
@[simp] theorem State.skipIf_input (c : Bool) : (s.skipIf c).input = s.input := by cases c <;> rfl
@[simp] theorem State.skipIf_schedule (c : Bool) : (s.skipIf c).schedule = s.schedule := by cases c <;> rfl
@[simp] theorem State.skipIf_draws (c : Bool) : (s.skipIf c).draws = s.draws := by cases c <;> rfl
@[simp] theorem State.skipIf_move8xy0 (c : Bool) : (s.skipIf c).move8xy0 = s.move8xy0 := by cases c <;> rfl
@[simp] theorem State.skipIf_reg (c : Bool) (q : Reg) : (s.skipIf c).reg q = s.reg q := by cases c <;> rfl
@[simp] theorem State.skipIf_readByte (c : Bool) (k : Nat) : (s.skipIf c).readByte k = s.readByte k := by cases c <;> rfl
@[simp] theorem State.skipIf_slot (c : Bool) (k : Int) : (s.skipIf c).slot k = s.slot k := by cases c <;> rfl
@[simp] theorem State.skipIf_ea (c : Bool) (k : Nat) : (s.skipIf c).ea k = s.ea k := by cases c <;> rfl

/-! ## `State.memRead` -/

@[simp] theorem State.memRead_v (a : Nat) : (s.memRead a).2.v = s.v := by unfold State.memRead; split <;> rfl
@[simp] theorem State.memRead_i (a : Nat) : (s.memRead a).2.i = s.i := by unfold State.memRead; split <;> rfl
@[simp] theorem State.memRead_pc (a : Nat) : (s.memRead a).2.pc = s.pc := by unfold State.memRead; split <;> rfl
@[simp] theorem State.memRead_dt (a : Nat) : (s.memRead a).2.dt = s.dt := by unfold State.memRead; split <;> rfl
@[simp] theorem State.memRead_st (a : Nat) : (s.memRead a).2.st = s.st := by unfold State.memRead; split <;> rfl
@[simp] theorem State.memRead_sp (a : Nat) : (s.memRead a).2.sp = s.sp := by unfold State.memRead; split <;> rfl
@[simp] theorem State.memRead_stack (a : Nat) : (s.memRead a).2.stack = s.stack := by unfold State.memRead; split <;> rfl
@[simp] theorem State.memRead_mem (a : Nat) : (s.memRead a).2.mem = s.mem := by unfold State.memRead; split <;> rfl
@[simp] theorem State.memRead_fb (a : Nat) : (s.memRead a).2.fb = s.fb := by unfold State.memRead; split <;> rfl
@[simp] theorem State.memRead_result (a : Nat) : (s.memRead a).2.result = s.result := by unfold State.memRead; split <;> rfl
@[simp] theorem State.memRead_errors (a : Nat) : (s.memRead a).2.errors =
      if inStore a then s.errors else s.errors ++ [.addressing .read a] :=
  by unfold State.memRead; split <;> rfl
@[simp] theorem State.memRead_presented (a : Nat) : (s.memRead a).2.presented = s.presented := by unfold State.memRead; split <;> rfl
@[simp] theorem State.memRead_input (a : Nat) : (s.memRead a).2.input = s.input := by unfold State.memRead; split <;> rfl
@[simp] theorem State.memRead_schedule (a : Nat) : (s.memRead a).2.schedule = s.schedule := by unfold State.memRead; split <;> rfl
@[simp] theorem State.memRead_draws (a : Nat) : (s.memRead a).2.draws = s.draws := by unfold State.memRead; split <;> rfl
@[simp] theorem State.memRead_move8xy0 (a : Nat) : (s.memRead a).2.move8xy0 = s.move8xy0 := by unfold State.memRead; split <;> rfl
@[simp] theorem State.memRead_reg (a : Nat) (q : Reg) : (s.memRead a).2.reg q = s.reg q := by unfold State.memRead; split <;> rfl
@[simp] theorem State.memRead_readByte (a : Nat) (k : Nat) : (s.memRead a).2.readByte k = s.readByte k := by unfold State.memRead; split <;> rfl
@[simp] theorem State.memRead_slot (a : Nat) (k : Int) : (s.memRead a).2.slot k = s.slot k := by unfold State.memRead; split <;> rfl
@[simp] theorem State.memRead_ea (a : Nat) (k : Nat) : (s.memRead a).2.ea k = s.ea k := by unfold State.memRead; split <;> rfl
@[simp] theorem State.memRead_val (a : Nat) : (s.memRead a).1 = s.readByte a := rfl

/-! ## `State.memWrite` -/

@[simp] theorem State.memWrite_v (a : Nat) (x : Byte) : (s.memWrite a x).v = s.v := by unfold State.memWrite; split <;> rfl
@[simp] theorem State.memWrite_i (a : Nat) (x : Byte) : (s.memWrite a x).i = s.i := by unfold State.memWrite; split <;> rfl
@[simp] theorem State.memWrite_pc (a : Nat) (x : Byte) : (s.memWrite a x).pc = s.pc := by unfold State.memWrite; split <;> rfl
@[simp] theorem State.memWrite_dt (a : Nat) (x : Byte) : (s.memWrite a x).dt = s.dt := by unfold State.memWrite; split <;> rfl
@[simp] theorem State.memWrite_st (a : Nat) (x : Byte) : (s.memWrite a x).st = s.st := by unfold State.memWrite; split <;> rfl
@[simp] theorem State.memWrite_sp (a : Nat) (x : Byte) : (s.memWrite a x).sp = s.sp := by unfold State.memWrite; split <;> rfl
@[simp] theorem State.memWrite_stack (a : Nat) (x : Byte) : (s.memWrite a x).stack = s.stack := by unfold State.memWrite; split <;> rfl
@[simp] theorem State.memWrite_fb (a : Nat) (x : Byte) : (s.memWrite a x).fb = s.fb := by unfold State.memWrite; split <;> rfl
@[simp] theorem State.memWrite_result (a : Nat) (x : Byte) : (s.memWrite a x).result = s.result := by unfold State.memWrite; split <;> rfl
@[simp] theorem State.memWrite_errors (a : Nat) (x : Byte) : (s.memWrite a x).errors =
      if inStore a then s.errors else s.errors ++ [.addressing .write a] :=
  by unfold State.memWrite; split <;> rfl
@[simp] theorem State.memWrite_presented (a : Nat) (x : Byte) : (s.memWrite a x).presented = s.presented := by unfold State.memWrite; split <;> rfl
@[simp] theorem State.memWrite_input (a : Nat) (x : Byte) : (s.memWrite a x).input = s.input := by unfold State.memWrite; split <;> rfl
@[simp] theorem State.memWrite_schedule (a : Nat) (x : Byte) : (s.memWrite a x).schedule = s.schedule := by unfold State.memWrite; split <;> rfl
@[simp] theorem State.memWrite_draws (a : Nat) (x : Byte) : (s.memWrite a x).draws = s.draws := by unfold State.memWrite; split <;> rfl
@[simp] theorem State.memWrite_move8xy0 (a : Nat) (x : Byte) : (s.memWrite a x).move8xy0 = s.move8xy0 := by unfold State.memWrite; split <;> rfl
@[simp] theorem State.memWrite_reg (a : Nat) (x : Byte) (q : Reg) : (s.memWrite a x).reg q = s.reg q := by unfold State.memWrite; split <;> rfl
@[simp] theorem State.memWrite_slot (a : Nat) (x : Byte) (k : Int) : (s.memWrite a x).slot k = s.slot k := by unfold State.memWrite; split <;> rfl
@[simp] theorem State.memWrite_ea (a : Nat) (x : Byte) (k : Nat) : (s.memWrite a x).ea k = s.ea k := by unfold State.memWrite; split <;> rfl

theorem State.memWrite_mem (a : Nat) (x : Byte) :
    (s.memWrite a x).mem = if inStore a then s.mem.write a x else s.mem := by
  unfold State.memWrite; split <;> rfl

/-- The store law: after `MemWrite(a, 1, x)` the byte at `a` is `x` when `a` lies in the store, and every other byte is as
it was (R61, R62). -/
theorem State.memWrite_readByte (a b : Nat) (x : Byte) :
    (s.memWrite a x).readByte b = if b = a ∧ inStore a then x else s.readByte b := by
  unfold State.readByte
  rw [State.memWrite_mem]
  by_cases ha : inStore a
  · by_cases hb : b = a
    · subst hb; simp [ha, Memory.read_write]
    · simp [ha, Memory.read_write, hb]
  · simp [ha]

/-! ## `State.setFlag` -/

@[simp] theorem State.setFlag_i (f : Bool) : (s.setFlag f).i = s.i := rfl
@[simp] theorem State.setFlag_pc (f : Bool) : (s.setFlag f).pc = s.pc := rfl
@[simp] theorem State.setFlag_dt (f : Bool) : (s.setFlag f).dt = s.dt := rfl
@[simp] theorem State.setFlag_st (f : Bool) : (s.setFlag f).st = s.st := rfl
@[simp] theorem State.setFlag_sp (f : Bool) : (s.setFlag f).sp = s.sp := rfl
@[simp] theorem State.setFlag_stack (f : Bool) : (s.setFlag f).stack = s.stack := rfl
@[simp] theorem State.setFlag_mem (f : Bool) : (s.setFlag f).mem = s.mem := rfl
@[simp] theorem State.setFlag_fb (f : Bool) : (s.setFlag f).fb = s.fb := rfl
@[simp] theorem State.setFlag_result (f : Bool) : (s.setFlag f).result = s.result := rfl
@[simp] theorem State.setFlag_errors (f : Bool) : (s.setFlag f).errors = s.errors := rfl
@[simp] theorem State.setFlag_presented (f : Bool) : (s.setFlag f).presented = s.presented := rfl
@[simp] theorem State.setFlag_input (f : Bool) : (s.setFlag f).input = s.input := rfl
@[simp] theorem State.setFlag_schedule (f : Bool) : (s.setFlag f).schedule = s.schedule := rfl
@[simp] theorem State.setFlag_draws (f : Bool) : (s.setFlag f).draws = s.draws := rfl
@[simp] theorem State.setFlag_move8xy0 (f : Bool) : (s.setFlag f).move8xy0 = s.move8xy0 := rfl
@[simp] theorem State.setFlag_readByte (f : Bool) (k : Nat) : (s.setFlag f).readByte k = s.readByte k := rfl
@[simp] theorem State.setFlag_slot (f : Bool) (k : Int) : (s.setFlag f).slot k = s.slot k := rfl
@[simp] theorem State.setFlag_ea (f : Bool) (k : Nat) : (s.setFlag f).ea k = s.ea k := rfl

/-! ## `State.setWithFlag` -/

@[simp] theorem State.setWithFlag_i (x : Reg) (b : Byte) (f : Bool) : (s.setWithFlag x b f).i = s.i := rfl
@[simp] theorem State.setWithFlag_pc (x : Reg) (b : Byte) (f : Bool) : (s.setWithFlag x b f).pc = s.pc := rfl
@[simp] theorem State.setWithFlag_dt (x : Reg) (b : Byte) (f : Bool) : (s.setWithFlag x b f).dt = s.dt := rfl
@[simp] theorem State.setWithFlag_st (x : Reg) (b : Byte) (f : Bool) : (s.setWithFlag x b f).st = s.st := rfl
@[simp] theorem State.setWithFlag_sp (x : Reg) (b : Byte) (f : Bool) : (s.setWithFlag x b f).sp = s.sp := rfl
@[simp] theorem State.setWithFlag_stack (x : Reg) (b : Byte) (f : Bool) : (s.setWithFlag x b f).stack = s.stack := rfl
@[simp] theorem State.setWithFlag_mem (x : Reg) (b : Byte) (f : Bool) : (s.setWithFlag x b f).mem = s.mem := rfl
@[simp] theorem State.setWithFlag_fb (x : Reg) (b : Byte) (f : Bool) : (s.setWithFlag x b f).fb = s.fb := rfl
@[simp] theorem State.setWithFlag_result (x : Reg) (b : Byte) (f : Bool) : (s.setWithFlag x b f).result = s.result := rfl
@[simp] theorem State.setWithFlag_errors (x : Reg) (b : Byte) (f : Bool) : (s.setWithFlag x b f).errors = s.errors := rfl
@[simp] theorem State.setWithFlag_presented (x : Reg) (b : Byte) (f : Bool) : (s.setWithFlag x b f).presented = s.presented := rfl
@[simp] theorem State.setWithFlag_input (x : Reg) (b : Byte) (f : Bool) : (s.setWithFlag x b f).input = s.input := rfl
@[simp] theorem State.setWithFlag_schedule (x : Reg) (b : Byte) (f : Bool) : (s.setWithFlag x b f).schedule = s.schedule := rfl
@[simp] theorem State.setWithFlag_draws (x : Reg) (b : Byte) (f : Bool) : (s.setWithFlag x b f).draws = s.draws := rfl
@[simp] theorem State.setWithFlag_move8xy0 (x : Reg) (b : Byte) (f : Bool) : (s.setWithFlag x b f).move8xy0 = s.move8xy0 := rfl
@[simp] theorem State.setWithFlag_readByte (x : Reg) (b : Byte) (f : Bool) (k : Nat) : (s.setWithFlag x b f).readByte k = s.readByte k := rfl
@[simp] theorem State.setWithFlag_slot (x : Reg) (b : Byte) (f : Bool) (k : Int) : (s.setWithFlag x b f).slot k = s.slot k := rfl
@[simp] theorem State.setWithFlag_ea (x : Reg) (b : Byte) (f : Bool) (k : Nat) : (s.setWithFlag x b f).ea k = s.ea k := rfl

theorem State.setFlag_reg (f : Bool) (q : Reg) : (s.setFlag f).reg q = if q = VF then flagByte f else s.reg q :=
  State.reg_setReg s VF q (flagByte f)

/-- The flag wins over the result when both go to VF (R31). -/
theorem State.setWithFlag_reg (x : Reg) (b : Byte) (f : Bool) (q : Reg) :
    (s.setWithFlag x b f).reg q = if q = VF then flagByte f else if q = x then b else s.reg q := by
  rw [State.setWithFlag, State.setFlag_reg, State.reg_setReg]

/-! ## The call stack -/

theorem State.push_full (w : Word) (h : s.sp = 15) : s.push w = (false, s.report (.stackOverflow s.pc)) := by
  simp [State.push, h]

theorem State.push_room (w : Word) (h : s.sp ≠ 15) :
    s.push w = (true, (s.setSp (s.sp + 1)).setSlot (s.sp + 1) w) := by
  simp [State.push, h]

theorem State.pop_empty (h : s.sp = -1) : s.pop = (none, s.report (.stackUnderflow s.pc)) := by
  simp [State.pop, h]

theorem State.pop_some (h : s.sp ≠ -1) : s.pop = (some (s.slot s.sp), s.setSp (s.sp - 1)) := by
  simp [State.pop, h]

/-! ## The fetch -/

@[simp] theorem State.fetch_val : s.fetch.1 = wordOfBytes (s.readByte s.pc.toNat) (s.readByte (s.pc.toNat + 1)) := by
  simp [State.fetch]

theorem State.fetch_state : s.fetch.2 = ((s.memRead s.pc.toNat).2.memRead (s.pc.toNat + 1)).2 := rfl


@[simp] theorem State.fetch_v : s.fetch.2.v = s.v := by simp [State.fetch_state]
@[simp] theorem State.fetch_i : s.fetch.2.i = s.i := by simp [State.fetch_state]
@[simp] theorem State.fetch_pc : s.fetch.2.pc = s.pc := by simp [State.fetch_state]
@[simp] theorem State.fetch_dt : s.fetch.2.dt = s.dt := by simp [State.fetch_state]
@[simp] theorem State.fetch_st : s.fetch.2.st = s.st := by simp [State.fetch_state]
@[simp] theorem State.fetch_sp : s.fetch.2.sp = s.sp := by simp [State.fetch_state]
@[simp] theorem State.fetch_stack : s.fetch.2.stack = s.stack := by simp [State.fetch_state]
@[simp] theorem State.fetch_mem : s.fetch.2.mem = s.mem := by simp [State.fetch_state]
@[simp] theorem State.fetch_fb : s.fetch.2.fb = s.fb := by simp [State.fetch_state]
@[simp] theorem State.fetch_result : s.fetch.2.result = s.result := by simp [State.fetch_state]
@[simp] theorem State.fetch_errors : s.fetch.2.errors = (if inStore (s.pc.toNat + 1) then (if inStore s.pc.toNat then s.errors else s.errors ++ [.addressing .read s.pc.toNat]) else (if inStore s.pc.toNat then s.errors else s.errors ++ [.addressing .read s.pc.toNat]) ++ [.addressing .read (s.pc.toNat + 1)]) := by simp [State.fetch_state]
@[simp] theorem State.fetch_presented : s.fetch.2.presented = s.presented := by simp [State.fetch_state]
@[simp] theorem State.fetch_input : s.fetch.2.input = s.input := by simp [State.fetch_state]
@[simp] theorem State.fetch_schedule : s.fetch.2.schedule = s.schedule := by simp [State.fetch_state]
@[simp] theorem State.fetch_draws : s.fetch.2.draws = s.draws := by simp [State.fetch_state]
@[simp] theorem State.fetch_move8xy0 : s.fetch.2.move8xy0 = s.move8xy0 := by simp [State.fetch_state]
@[simp] theorem State.fetch_reg (q : Reg) : s.fetch.2.reg q = s.reg q := by simp [State.fetch_state]
@[simp] theorem State.fetch_readByte (k : Nat) : s.fetch.2.readByte k = s.readByte k := by simp [State.fetch_state]
@[simp] theorem State.fetch_slot (k : Int) : s.fetch.2.slot k = s.slot k := by simp [State.fetch_state]
@[simp] theorem State.fetch_ea (k : Nat) : s.fetch.2.ea k = s.ea k := by simp [State.fetch_state]

/-- A fetch inside the store reports nothing and changes nothing. -/
theorem State.fetch_inStore (h : s.pc.toNat < 0xFFF) : s.fetch.2 = s := by
  have h1 : s.pc.toNat ≤ 4095 := by omega
  have h2 : s.pc.toNat + 1 ≤ 4095 := by omega
  simp [State.fetch, State.memRead, inStore, h1, h2]

end Sys2Proof.Machine
end

