-- ==== Sys2Proof/Laws/Frames.lean ====
section
/-! SUPPORT. The frame of each shared operation, and how frames compose: a meaning's frame is the frames of its operations
put together. -/

namespace Sys2Proof.Machine

theorem SamePart.refl (s : State) (p : Part) : SamePart s s p := by
  cases p <;> simp [SamePart]

theorem SamePart.trans {s t u : State} {p : Part} (h : SamePart s t p) (h' : SamePart t u p) : SamePart s u p := by
  cases p <;> simp_all [SamePart]

theorem ChangesOnly.refl (s : State) (may : Part → Prop) : ChangesOnly s s may := fun p _ => SamePart.refl s p

theorem ChangesOnly.mono {s t : State} {may may' : Part → Prop} (h : ChangesOnly s t may) (hm : ∀ p, may p → may' p) :
    ChangesOnly s t may' := fun p hp => h p (fun hq => hp (hm p hq))

theorem ChangesOnly.trans {s t u : State} {may : Part → Prop} (h : ChangesOnly s t may) (h' : ChangesOnly t u may) :
    ChangesOnly s u may := fun p hp => (h p hp).trans (h' p hp)

theorem changesOnly_setReg (s : State) (r : Reg) (b : Byte) : ChangesOnly s (s.setReg r b) (fun p => p = .reg r) := by
  intro p hp
  cases p <;> simp_all [SamePart, State.reg_setReg]

theorem changesOnly_setI (s : State) (w : Word) : ChangesOnly s (s.setI w) (fun p => p = .index) := by
  intro p hp
  cases p <;> simp_all [SamePart]

theorem changesOnly_setPc (s : State) (w : Word) : ChangesOnly s (s.setPc w) (fun p => p = .pc) := by
  intro p hp
  cases p <;> simp_all [SamePart]

theorem changesOnly_setDt (s : State) (b : Byte) : ChangesOnly s (s.setDt b) (fun p => p = .dt) := by
  intro p hp
  cases p <;> simp_all [SamePart]

theorem changesOnly_setSt (s : State) (b : Byte) : ChangesOnly s (s.setSt b) (fun p => p = .st) := by
  intro p hp
  cases p <;> simp_all [SamePart]

theorem changesOnly_setSp (s : State) (n : Int) : ChangesOnly s (s.setSp n) (fun p => p = .sp) := by
  intro p hp
  cases p <;> simp_all [SamePart]

theorem changesOnly_setSlot (s : State) (j : Int) (w : Word) :
    ChangesOnly s (s.setSlot j w) (fun p => ∃ k : Fin 16, k.val = j.toNat ∧ p = .slot k) := by
  intro p hp
  cases p with
  | slot k =>
    have hk : j.toNat ≠ k.val := fun h => hp ⟨k, h.symm, rfl⟩
    simp [SamePart, hk]
  | _ => simp [SamePart]

theorem changesOnly_setFb (s : State) (f : Framebuffer) : ChangesOnly s (s.setFb f) (fun p => ∃ r c, p = .pixel r c) := by
  intro p hp
  cases p <;> simp_all [SamePart]

theorem changesOnly_setResult (s : State) (r : HandlerResult) : ChangesOnly s (s.setResult r) (fun p => p = .result) := by
  intro p hp
  cases p <;> simp_all [SamePart]

theorem changesOnly_report (s : State) (e : ErrorRecord) : ChangesOnly s (s.report e) (fun p => p = .errors) := by
  intro p hp
  cases p <;> simp_all [SamePart]

theorem changesOnly_advance (s : State) : ChangesOnly s s.advance (fun p => p = .pc) := changesOnly_setPc s _

theorem changesOnly_rewind (s : State) : ChangesOnly s s.rewind (fun p => p = .pc) := changesOnly_setPc s _

theorem changesOnly_skipIf (s : State) (c : Bool) : ChangesOnly s (s.skipIf c) (fun p => p = .pc) := by
  cases c
  · exact ChangesOnly.refl _ _
  · exact changesOnly_advance s

theorem changesOnly_memRead (s : State) (a : Nat) : ChangesOnly s (s.memRead a).2 (fun p => p = .errors) := by
  intro p hp
  cases p <;> simp_all [SamePart]

theorem changesOnly_memWrite (s : State) (a : Nat) (x : Byte) :
    ChangesOnly s (s.memWrite a x) (fun p => p = .errors ∨ p = .byte a) := by
  intro p hp
  cases p with
  | byte b =>
    have hb : b ≠ a := fun h => hp (Or.inr (by rw [h]))
    simp [SamePart, State.memWrite_readByte, hb]
  | errors => exact absurd (Or.inl rfl) hp
  | _ => simp [SamePart]

theorem changesOnly_setWithFlag (s : State) (x : Reg) (b : Byte) (f : Bool) :
    ChangesOnly s (s.setWithFlag x b f) (fun p => p = .reg x ∨ p = .reg VF) :=
  ((changesOnly_setReg s x b).mono fun _ h => Or.inl h).trans
    ((changesOnly_setReg _ VF _).mono fun _ h => Or.inr h)

end Sys2Proof.Machine
end

