-- ==== Sys2Proof/Laws/Transfers.lean ====
section
/-! SUPPORT. What the register transfers Fx33, Fx55 and Fx65 do after `n` bytes, by induction on `n`
(spec/43_index_memory.md R183–R185). -/

namespace Sys2Proof.Machine

theorem inStore_iff (a : Nat) : inStore a = true ↔ a ≤ 0xFFF := by simp [inStore]

theorem regOfNat_toNat {k : Nat} (h : k < 16) : (regOfNat k).toNat = k := by
  simp [regOfNat, Nat.mod_eq_of_lt h]

theorem regOfNat_self (r : Reg) : regOfNat r.toNat = r := by simp [regOfNat]

theorem accessErrors_zero (kind : AccessKind) (s : State) : accessErrors kind s 0 = [] := rfl

/-- One more access: its error, if it has one, comes last. -/
theorem accessErrors_succ (kind : AccessKind) (s : State) (n : Nat) :
    accessErrors kind s (n + 1) =
      accessErrors kind s n ++ if inStore (s.ea n) then [] else [.addressing kind (s.ea n)] := by
  unfold accessErrors
  rw [List.range_succ, List.map_append, List.filter_append, List.map_append]
  by_cases h : s.i.toNat + n ≤ 0xFFF
  · have h' : ¬ 4095 < s.i.toNat + n := by omega
    simp [inStore, State.ea, h, h']
  · have h' : 4095 < s.i.toNat + n := by omega
    simp [inStore, State.ea, h, h']

/-! ## Storing registers (R184) -/

@[simp] theorem State.storeRegs_v (s : State) (n : Nat) : (s.storeRegs n).v = s.v := by
  induction n with
  | zero => rfl
  | succ n ih => simp [State.storeRegs, ih]

@[simp] theorem State.storeRegs_i (s : State) (n : Nat) : (s.storeRegs n).i = s.i := by
  induction n with
  | zero => rfl
  | succ n ih => simp [State.storeRegs, ih]

theorem State.storeRegs_errors (s : State) (n : Nat) :
    (s.storeRegs n).errors = s.errors ++ accessErrors .write s n := by
  induction n with
  | zero => simp [State.storeRegs, accessErrors_zero]
  | succ n ih =>
    rw [State.storeRegs, State.memWrite_errors, ih, accessErrors_succ]
    split <;> simp

theorem changesOnly_storeRegs (s : State) (n : Nat) :
    ChangesOnly s (s.storeRegs n) (fun p => p = .errors ∨ ∃ k, k < n ∧ p = .byte (s.i.toNat + k)) := by
  induction n with
  | zero => exact ChangesOnly.refl s _
  | succ n ih =>
    refine (ih.mono ?_).trans ((changesOnly_memWrite _ (s.ea n) _).mono ?_)
    · rintro p (h | ⟨k, hk, h⟩)
      · exact Or.inl h
      · exact Or.inr ⟨k, by omega, h⟩
    · rintro p (h | h)
      · exact Or.inl h
      · exact Or.inr ⟨n, by omega, h⟩

/-- Each of the first `n` registers stands at its address, where that address lies in the store. -/
theorem State.storeRegs_readByte (s : State) {n k : Nat} (hk : k < n) (h : s.i.toNat + k ≤ 0xFFF) :
    (s.storeRegs n).readByte (s.i.toNat + k) = s.reg (regOfNat k) := by
  induction n with
  | zero => omega
  | succ n ih =>
    rw [State.storeRegs, State.memWrite_readByte]
    by_cases hn : k = n
    · subst hn
      simp [State.ea, (inStore_iff _).mpr h]
    · have : s.i.toNat + k ≠ s.ea n := by simp only [State.ea]; omega
      simp [this, ih (by omega)]

/-! ## Loading registers (R185) -/

@[simp] theorem State.loadRegs_i (s : State) (n : Nat) : (s.loadRegs n).i = s.i := by
  induction n with
  | zero => rfl
  | succ n ih => simp [State.loadRegs, ih]

@[simp] theorem State.loadRegs_mem (s : State) (n : Nat) : (s.loadRegs n).mem = s.mem := by
  induction n with
  | zero => rfl
  | succ n ih => simp [State.loadRegs, ih]

@[simp] theorem State.loadRegs_readByte (s : State) (n a : Nat) : (s.loadRegs n).readByte a = s.readByte a := by
  simp [State.readByte]

theorem State.loadRegs_errors (s : State) (n : Nat) :
    (s.loadRegs n).errors = s.errors ++ accessErrors .read s n := by
  induction n with
  | zero => simp [State.loadRegs, accessErrors_zero]
  | succ n ih =>
    rw [State.loadRegs, accessErrors_succ]
    simp only [State.setReg_errors, State.memRead_errors, ih]
    split <;> simp

theorem changesOnly_loadRegs (s : State) (n : Nat) (hn : n ≤ 16) :
    ChangesOnly s (s.loadRegs n) (fun p => p = .errors ∨ ∃ r : Reg, r.toNat < n ∧ p = .reg r) := by
  induction n with
  | zero => exact ChangesOnly.refl s _
  | succ n ih =>
    refine ((ih (by omega)).mono ?_).trans
      (((changesOnly_memRead _ (s.ea n)).mono fun p h => Or.inl h).trans ((changesOnly_setReg _ (regOfNat n) _).mono ?_))
    · rintro p (h | ⟨r, hr, h⟩)
      · exact Or.inl h
      · exact Or.inr ⟨r, by omega, h⟩
    · intro p h
      exact Or.inr ⟨regOfNat n, by rw [regOfNat_toNat (by omega)]; omega, h⟩

/-- Each of the first `n` registers holds the byte at its address, 0x00 for one outside the store. -/
theorem State.loadRegs_reg (s : State) {n : Nat} (hn : n ≤ 16) {r : Reg} (hr : r.toNat < n) :
    (s.loadRegs n).reg r = s.readByte (s.i.toNat + r.toNat) := by
  induction n with
  | zero => omega
  | succ n ih =>
    rw [State.loadRegs]
    by_cases h : r.toNat = n
    · have : regOfNat n = r := by rw [← h, regOfNat_self]
      simp [this, State.ea, h]
    · have hne : r ≠ regOfNat n := by
        intro e
        exact h (by rw [e, regOfNat_toNat (by omega)])
      rw [State.reg_setReg_ne _ _ hne, State.memRead_reg]
      exact ih (by omega) (by omega)

end Sys2Proof.Machine
end

