-- ==== Sys2Proof/Laws/Display.lean ====
section
/-! SUPPORT. Cells of the framebuffer, and what the drawing loop has done after some columns and after some rows
(spec/44_display.md R201). -/

namespace Sys2Proof.Machine

/-! ## Cells -/

theorem pixel_setPixel (f : Framebuffer) (r r' : Fin 32) (c c' : Fin 64) (b : Bool) :
    pixel (setPixel f r c b) r' c' = if r' = r ∧ c' = c then b else pixel f r' c' := by
  unfold pixel setPixel
  by_cases hr : r' = r
  · subst hr
    by_cases hc : c' = c
    · subst hc; simp
    · have : c.val ≠ c'.val := fun h => hc (Fin.ext h.symm)
      simp [this, hc]
  · have : r.val ≠ r'.val := fun h => hr (Fin.ext h.symm)
    simp [this, hr]

/-- Two framebuffers with the same cells are the same. -/
theorem framebuffer_ext {f g : Framebuffer} (h : ∀ r c, pixel f r c = pixel g r c) : f = g := by
  apply Vector.ext
  intro r hr
  apply Vector.ext
  intro c hc
  exact h ⟨r, hr⟩ ⟨c, hc⟩

@[simp] theorem pixel_blankFb (r : Fin 32) (c : Fin 64) : pixel blankFb r c = false := by
  simp [pixel, blankFb]

/-! ## The columns of one sprite row -/

/-- Some of the first `n` columns of a sprite byte reaches column `c` with a 1 bit. -/
def colsCover (b cx : Byte) (n : Nat) (c : Fin 64) : Bool :=
  (List.range n).any fun col => b.getLsbD (7 - col) && decide ((cx.toNat + col) % 64 = c.val)

theorem colsCover_succ (b cx : Byte) (n : Nat) (c : Fin 64) :
    colsCover b cx (n + 1) c = (colsCover b cx n c || (spriteBit b n && decide (c = wrapCol cx n))) := by
  have h : decide ((cx.toNat + n) % 64 = c.val) = decide (c = wrapCol cx n) := by
    simp only [wrapCol, Fin.ext_iff, Fin.val_ofNat, eq_comm]
  simp [colsCover, List.range_succ, h, spriteBit]

/-- The columns of a row reach different cells, so the next one is not yet covered. -/
theorem colsCover_next (b cx : Byte) {n : Nat} (hn : n < 64) : colsCover b cx n (wrapCol cx n) = false := by
  simp only [colsCover, List.any_eq_false, List.mem_range, wrapCol, Fin.val_ofNat]
  intro k hk
  have : (cx.toNat + k) % 64 ≠ (cx.toNat + n) % 64 := by omega
  simp [this]

theorem drawCols_pixel (p : Framebuffer × Bool) (b cx : Byte) (r : Fin 32) (n : Nat) (r' : Fin 32) (c : Fin 64) :
    n ≤ 64 → pixel (drawCols p b cx r n).1 r' c = (pixel p.1 r' c ^^ (decide (r' = r) && colsCover b cx n c)) := by
  induction n with
  | zero => simp [drawCols, colsCover]
  | succ n ih =>
    intro hn
    have ih := ih (by omega)
    rw [drawCols, colsCover_succ, drawBit]
    by_cases hb : spriteBit b n
    · by_cases hc : r' = r ∧ c = wrapCol cx n
      · obtain ⟨rfl, rfl⟩ := hc
        simp [hb, pixel_setPixel, ih, colsCover_next b cx (show n < 64 by omega)]
      · have : (decide (r' = r) && decide (c = wrapCol cx n)) = false := by simpa using hc
        simp only [hb, if_true, pixel_setPixel, hc, if_false, ih, Bool.true_and, Bool.and_or_distrib_left, this,
          Bool.or_false]
    · simp [hb, ih]

theorem drawCols_collision (p : Framebuffer × Bool) (b cx : Byte) (r : Fin 32) (n : Nat) :
    n ≤ 64 → ((drawCols p b cx r n).2 = true ↔
      p.2 = true ∨ ∃ c, colsCover b cx n c = true ∧ pixel p.1 r c = true) := by
  induction n with
  | zero => simp [drawCols, colsCover]
  | succ n ih =>
    intro hn
    have hpix := drawCols_pixel p b cx r n r (wrapCol cx n) (by omega)
    rw [colsCover_next b cx (show n < 64 by omega)] at hpix
    simp only [Bool.and_false, Bool.xor_false] at hpix
    rw [drawCols, drawBit]
    by_cases hb : spriteBit b n
    · simp only [hb, if_true, Bool.or_eq_true, ih (by omega), hpix, colsCover_succ, Bool.true_and, decide_eq_true_eq]
      constructor
      · rintro ((h | ⟨c, h, h'⟩) | h)
        · exact Or.inl h
        · exact Or.inr ⟨c, Or.inl h, h'⟩
        · exact Or.inr ⟨_, Or.inr rfl, h⟩
      · rintro (h | ⟨c, h | h, h'⟩)
        · exact Or.inl (Or.inl h)
        · exact Or.inl (Or.inr ⟨c, h, h'⟩)
        · exact Or.inr (h ▸ h')
    · simp [hb, ih (by omega), colsCover_succ]

/-! ## The rows of a sprite -/

/-- Some of the first `n` rows of the sprite reaches the cell (r, c) with a 1 bit. -/
def rowsCover (s : State) (cx cy : Byte) (n : Nat) (r : Fin 32) (c : Fin 64) : Bool :=
  (List.range n).any fun row => decide (r = wrapRow cy row) && colsCover (s.readByte (s.ea row)) cx 8 c

theorem rowsCover_succ (s : State) (cx cy : Byte) (n : Nat) (r : Fin 32) (c : Fin 64) :
    rowsCover s cx cy (n + 1) r c =
      (rowsCover s cx cy n r c || (decide (r = wrapRow cy n) && colsCover (s.readByte (s.ea n)) cx 8 c)) := by
  simp [rowsCover, List.range_succ]

/-- The rows of a sprite reach different rows of cells. -/
theorem rowsCover_next (s : State) (cx cy : Byte) {n : Nat} (hn : n < 32) (c : Fin 64) :
    rowsCover s cx cy n (wrapRow cy n) c = false := by
  simp only [rowsCover, List.any_eq_false, List.mem_range]
  intro k hk
  have : wrapRow cy n ≠ wrapRow cy k := by
    simp only [wrapRow, ne_eq, Fin.ext_iff, Fin.val_ofNat]
    omega
  simp [this]

/-- The cells a draw covers, in the words of the claims. -/
theorem spriteCovers_eq (s : State) (x y : Reg) (n : Nibble) (r : Fin 32) (c : Fin 64) :
    spriteCovers s x y n r c = rowsCover s (s.reg x) (s.reg y) n.toNat r c := by
  unfold spriteCovers rowsCover
  congr 1
  funext row
  have h : decide (((s.reg y).toNat + row) % 32 = r.val) = decide (r = wrapRow (s.reg y) row) := by
    simp only [wrapRow, Fin.ext_iff, Fin.val_ofNat, eq_comm]
  rw [Bool.eq_iff_iff]
  simp only [colsCover, List.any_eq_true, Bool.and_eq_true, h, State.ea, decide_eq_true_eq]
  constructor
  · rintro ⟨col, hc, ⟨h1, h2⟩, h3⟩
    exact ⟨h2, col, hc, h1, h3⟩
  · rintro ⟨h2, col, hc, h1, h3⟩
    exact ⟨col, hc, ⟨h1, h2⟩, h3⟩

@[simp] theorem State.afterRow_i (s : State) (p : Framebuffer × Bool) : (s.afterRow p).i = s.i := by
  unfold State.afterRow; split <;> rfl

@[simp] theorem State.afterRow_mem (s : State) (p : Framebuffer × Bool) : (s.afterRow p).mem = s.mem := by
  unfold State.afterRow; split <;> rfl

@[simp] theorem State.afterRow_errors (s : State) (p : Framebuffer × Bool) : (s.afterRow p).errors = s.errors := by
  unfold State.afterRow; split <;> rfl

@[simp] theorem State.afterRow_fb (s : State) (p : Framebuffer × Bool) : (s.afterRow p).fb = p.1 := by
  unfold State.afterRow; split <;> rfl

theorem State.afterRow_reg (s : State) (p : Framebuffer × Bool) (q : Reg) :
    (s.afterRow p).reg q = if p.2 = true ∧ q = VF then 1 else s.reg q := by
  unfold State.afterRow
  by_cases h : p.2
  · simp [h, State.reg_setReg]
  · simp [h]

theorem changesOnly_afterRow (s : State) (p : Framebuffer × Bool) :
    ChangesOnly s (s.afterRow p) (fun q => q = .reg VF ∨ ∃ r c, q = .pixel r c) := by
  have h := (changesOnly_setFb s p.1).mono (may' := fun q => q = .reg VF ∨ ∃ r c, q = .pixel r c) fun q h => Or.inr h
  unfold State.afterRow
  split
  · exact h.trans ((changesOnly_setReg _ VF 1).mono fun q h => Or.inl h)
  · exact h

@[simp] theorem State.drawRows_i (s : State) (cx cy : Byte) (n : Nat) : (s.drawRows cx cy n).i = s.i := by
  induction n with
  | zero => rfl
  | succ n ih => simp [State.drawRows, State.drawRow, ih]

@[simp] theorem State.drawRows_mem (s : State) (cx cy : Byte) (n : Nat) : (s.drawRows cx cy n).mem = s.mem := by
  induction n with
  | zero => rfl
  | succ n ih => simp [State.drawRows, State.drawRow, ih]

@[simp] theorem State.drawRows_readByte (s : State) (cx cy : Byte) (n a : Nat) :
    (s.drawRows cx cy n).readByte a = s.readByte a := by
  simp [State.readByte]

@[simp] theorem State.drawRows_ea (s : State) (cx cy : Byte) (n k : Nat) : (s.drawRows cx cy n).ea k = s.ea k := by
  simp [State.ea]

theorem State.drawRows_errors (s : State) (cx cy : Byte) (n : Nat) :
    (s.drawRows cx cy n).errors = s.errors ++ accessErrors .read s n := by
  induction n with
  | zero => simp [State.drawRows, accessErrors_zero]
  | succ n ih =>
    rw [State.drawRows, State.drawRow, accessErrors_succ]
    simp only [State.afterRow_errors, State.memRead_errors, ih, State.drawRows_ea]
    split <;> simp

theorem changesOnly_drawRows (s : State) (cx cy : Byte) (n : Nat) :
    ChangesOnly s (s.drawRows cx cy n) (fun p => p = .reg VF ∨ p = .errors ∨ ∃ r c, p = .pixel r c) := by
  induction n with
  | zero => exact ChangesOnly.refl s _
  | succ n ih =>
    refine ih.trans (((changesOnly_memRead _ _).mono fun p h => Or.inr (Or.inl h)).trans
      ((changesOnly_afterRow _ _).mono ?_))
    rintro p (h | h)
    · exact Or.inl h
    · exact Or.inr (Or.inr h)

/-- After `n` rows exactly the cells they cover are toggled. -/
theorem State.drawRows_pixel (s : State) (cx cy : Byte) (n : Nat) (r : Fin 32) (c : Fin 64) (hn : n ≤ 32) :
    pixel (s.drawRows cx cy n).fb r c = (pixel s.fb r c ^^ rowsCover s cx cy n r c) := by
  induction n with
  | zero => simp [State.drawRows, rowsCover]
  | succ n ih =>
    have ih := ih (by omega)
    rw [State.drawRows, State.drawRow, rowsCover_succ]
    simp only [State.afterRow_fb, State.memRead_fb, State.memRead_val, State.drawRows_readByte, State.drawRows_ea]
    rw [drawCols_pixel _ _ _ _ _ _ _ (by omega), ih]
    by_cases hr : r = wrapRow cy n
    · subst hr
      simp [rowsCover_next s cx cy (show n < 32 by omega)]
    · simp [hr]

/-- After `n` rows VF is 1 when a covered cell was on, and what it was before otherwise; every other register is as it was. -/
theorem State.drawRows_reg (s : State) (cx cy : Byte) (n : Nat) (hn : n ≤ 32) (q : Reg) :
    ((∃ r c, rowsCover s cx cy n r c = true ∧ pixel s.fb r c = true) ∧ q = VF → (s.drawRows cx cy n).reg q = 1) ∧
    (¬ ((∃ r c, rowsCover s cx cy n r c = true ∧ pixel s.fb r c = true) ∧ q = VF) →
      (s.drawRows cx cy n).reg q = s.reg q) := by
  induction n with
  | zero => simp [State.drawRows, rowsCover]
  | succ n ih =>
    have ih := ih (by omega)
    have hcol : (drawCols ((s.drawRows cx cy n).fb, false) (s.readByte (s.ea n)) cx (wrapRow cy n) 8).2 = true ↔
        ∃ c, colsCover (s.readByte (s.ea n)) cx 8 c = true ∧ pixel s.fb (wrapRow cy n) c = true := by
      rw [drawCols_collision _ _ _ _ _ (by omega)]
      simp [State.drawRows_pixel s cx cy n _ _ (show n ≤ 32 by omega), rowsCover_next s cx cy (show n < 32 by omega)]
    have hreg : (s.drawRows cx cy (n + 1)).reg q =
        if (∃ c, colsCover (s.readByte (s.ea n)) cx 8 c = true ∧ pixel s.fb (wrapRow cy n) c = true) ∧ q = VF
        then 1 else (s.drawRows cx cy n).reg q := by
      rw [State.drawRows, State.drawRow]
      simp only [State.afterRow_reg, State.memRead_fb, State.memRead_val, State.drawRows_readByte, State.drawRows_ea,
        State.memRead_reg, hcol]
    have hcov : (∃ r c, rowsCover s cx cy (n + 1) r c = true ∧ pixel s.fb r c = true) ↔
        (∃ r c, rowsCover s cx cy n r c = true ∧ pixel s.fb r c = true) ∨
        ∃ c, colsCover (s.readByte (s.ea n)) cx 8 c = true ∧ pixel s.fb (wrapRow cy n) c = true := by
      simp only [rowsCover_succ, Bool.or_eq_true, Bool.and_eq_true, decide_eq_true_eq]
      constructor
      · rintro ⟨r, c, h | ⟨rfl, h⟩, h'⟩
        · exact Or.inl ⟨r, c, h, h'⟩
        · exact Or.inr ⟨c, h, h'⟩
      · rintro (⟨r, c, h, h'⟩ | ⟨c, h, h'⟩)
        · exact ⟨r, c, Or.inl h, h'⟩
        · exact ⟨_, c, Or.inr ⟨rfl, h⟩, h'⟩
    rw [hreg, hcov]
    constructor
    · rintro ⟨h | h, rfl⟩
      · rw [ih.1 ⟨h, rfl⟩, ite_self]
      · rw [if_pos ⟨h, rfl⟩]
    · intro h
      rw [if_neg fun hc => h ⟨Or.inr hc.1, hc.2⟩]
      exact ih.2 fun hc => h ⟨Or.inl hc.1, hc.2⟩

end Sys2Proof.Machine
end

