-- ==== Sys2Proof/Laws/Step.lean ====
section
/-! SUPPORT. What a step can do, said once: which interaction comes next, and in which state its instruction runs
(spec/40_fetch_dispatch.md R125; spec/60_exceptions.md R258). -/

namespace Sys2Proof.Machine

theorem State.takeAct_cpu {s : State} {inp : StepInput} {rest : List HostAct} (h : s.schedule = .cpu inp :: rest) :
    s.takeAct = (.cpu inp, s.setSchedule rest) := by
  simp [State.takeAct, h]

theorem State.takeAct_tick {s : State} {rest : List HostAct} (h : s.schedule = .tick :: rest) :
    s.takeAct = (.tick, s.setSchedule rest) := by
  simp [State.takeAct, h]

theorem State.takeAct_quit {s : State} {rest : List HostAct} (h : s.schedule = .quit :: rest) :
    s.takeAct = (.quit, s) := by
  simp [State.takeAct, h]

theorem State.takeAct_none {s : State} (h : s.schedule = []) :
    s.takeAct = (.cpu (Config.freeInput s.draws), s.setDraws (s.draws + 1)) := by
  simp [State.takeAct, h]

/-- A frame tick takes place as one step. -/
theorem step_tick {s : State} {rest : List HostAct} (h : s.schedule = .tick :: rest) :
    step s = .next (s.setSchedule rest).frameTick := by
  unfold step State.interact
  rw [State.takeAct_tick h]

/-- A step at a quit does nothing. -/
theorem step_quit {s : State} {rest : List HostAct} (h : s.schedule = .quit :: rest) : step s = .next s := by
  unfold step State.interact
  rw [State.takeAct_quit h]

/-- The state in which the instruction of a `step()` runs, when it starts from `s` with the inputs `inp`. -/
def State.handlerState (s : State) (inp : StepInput) : State := (s.beginStep inp).fetch.2.advance

/-- The four kinds of a step: a scheduled `step()`, a `step()` with free inputs, a frame tick, a quit. -/
theorem step_cases (s : State) :
    (∃ inp rest, s.schedule = .cpu inp :: rest ∧
      step s = exec (decode s.nextWord) ((s.setSchedule rest).handlerState inp)) ∨
    (s.schedule = [] ∧
      step s = exec (decode s.nextWord) ((s.setDraws (s.draws + 1)).handlerState (Config.freeInput s.draws))) ∨
    (∃ rest, s.schedule = .tick :: rest ∧ step s = .next (s.setSchedule rest).frameTick) ∨
    (∃ rest, s.schedule = .quit :: rest ∧ step s = .next s) := by
  have hw : ∀ (t : State) (inp : StepInput), (t.beginStep inp).fetch.1 = t.nextWord := fun t inp => by
    simp [State.beginStep, State.nextWord]
  unfold step State.interact
  match h : s.schedule with
  | .cpu inp :: rest =>
    refine Or.inl ⟨inp, rest, rfl, ?_⟩
    rw [State.takeAct_cpu h]
    simp only [cpuStep, hw]
    rfl
  | [] =>
    refine Or.inr (Or.inl ⟨rfl, ?_⟩)
    rw [State.takeAct_none h]
    simp only [cpuStep, hw]
    rfl
  | .tick :: rest =>
    refine Or.inr (Or.inr (Or.inl ⟨rest, rfl, ?_⟩))
    rw [State.takeAct_tick h]
  | .quit :: rest =>
    refine Or.inr (Or.inr (Or.inr ⟨rest, rfl, ?_⟩))
    rw [State.takeAct_quit h]

/-- Before its instruction runs, a step changes only PC, the outputs of the fetch and the step's own bookkeeping. -/
theorem changesOnly_handlerState (s : State) (inp : StepInput) :
    ChangesOnly s (s.handlerState inp) (fun p => p = .pc ∨ p = .errors ∨ p = .result ∨ p = .input) := by
  intro p hp
  cases p <;> simp_all [SamePart, State.handlerState, State.beginStep]

@[simp] theorem State.handlerState_pc (s : State) (inp : StepInput) : (s.handlerState inp).pc = s.pc + 2 := by
  simp [State.handlerState, State.beginStep]

@[simp] theorem State.handlerState_input (s : State) (inp : StepInput) : (s.handlerState inp).input = inp := by
  simp [State.handlerState, State.beginStep]

@[simp] theorem State.handlerState_result (s : State) (inp : StepInput) : (s.handlerState inp).result = .completed := by
  simp [State.handlerState, State.beginStep]

@[simp] theorem State.handlerState_mem (s : State) (inp : StepInput) : (s.handlerState inp).mem = s.mem := by
  simp [State.handlerState, State.beginStep]

@[simp] theorem State.handlerState_sp (s : State) (inp : StepInput) : (s.handlerState inp).sp = s.sp := by
  simp [State.handlerState, State.beginStep]

/-- Inside the store the fetch leaves no trace but PC. -/
theorem State.handlerState_inStore {s : State} (inp : StepInput) (h : s.pc.toNat < 0xFFF) :
    s.handlerState inp = (s.beginStep inp).advance := by
  unfold State.handlerState
  rw [State.fetch_inStore (s.beginStep inp) h]

@[simp] theorem countDown_toNat (b : Byte) : (countDown b).toNat = b.toNat - 1 := by
  unfold countDown
  split
  · rw [BitVec.toNat_sub_of_le (by simpa [BitVec.le_def] using by omega)]; rfl
  · omega

/-- A frame tick changes the timers and presents; nothing else. -/
theorem changesOnly_frameTick (s : State) :
    ChangesOnly s s.frameTick (fun p => p = .dt ∨ p = .st ∨ p = .presented) := by
  intro p hp
  cases p <;> simp_all [SamePart, State.frameTick]

end Sys2Proof.Machine
end

