-- ==== Sys2Proof/Laws/Exec.lean ====
section
/-! SUPPORT. Small facts about the meanings: each answers a next state, the operands as numbers, the store's form after a
store, and that the errors reported before and the inputs are carried along by the operations that do not read them. -/

namespace Sys2Proof.Machine

/-- No instruction stops. -/
theorem exec_next (i : Instr) (s : State) : ∃ t, exec i s = .next t := by
  cases i <;> exact ⟨_, rfl⟩

theorem execLdReg_move {x y : Reg} {s : State} (h : s.move8xy0 = true) :
    execLdReg x y s = .next (s.setReg x (s.reg y)) := by
  simp [execLdReg, h]

theorem execLdReg_nop {x y : Reg} {s : State} (h : s.move8xy0 = false) : execLdReg x y s = .next s := by
  simp [execLdReg, h]

theorem wordOfAddr_toNat (n : Addr12) : (wordOfAddr n).toNat = n.toNat := by
  simp only [wordOfAddr, BitVec.toNat_setWidth]
  have := n.isLt
  omega

theorem wordOfByte_toNat (b : Byte) : (wordOfByte b).toNat = b.toNat := by
  simp only [wordOfByte, BitVec.toNat_setWidth]
  have := b.isLt
  omega

theorem State.skipIf_pc_toNat (s : State) (c : Bool) :
    (s.skipIf c).pc.toNat = if c then (s.pc.toNat + 2) % 65536 else s.pc.toNat := by
  cases c <;> simp

theorem mem_allKeys (k : Key) : k ∈ allKeys := by
  revert k
  decide

/-- A scheduled `step()` runs the instruction of the next word. -/
theorem step_cpu {s : State} {inp : StepInput} {rest : List HostAct} (hs : s.schedule = .cpu inp :: rest) :
    step s = exec (decode s.nextWord) ((s.setSchedule rest).handlerState inp) := by
  obtain ⟨inp', rest', h1, h2⟩ | ⟨h1, _⟩ | ⟨_, h1, _⟩ | ⟨_, h1, _⟩ := step_cases s
  · rw [hs] at h1
    injection h1 with h3 h4
    injection h3 with h3
    subst h3 h4
    exact h2
  all_goals
    rw [hs] at h1
    cases h1

/-- With nothing scheduled a step runs the instruction of the next word with free inputs. -/
theorem step_free {s : State} (hs : s.schedule = []) :
    step s = exec (decode s.nextWord) ((s.setDraws (s.draws + 1)).handlerState (Config.freeInput s.draws)) := by
  obtain ⟨_, _, h, _⟩ | ⟨_, h⟩ | ⟨_, h, _⟩ | ⟨_, h, _⟩ := step_cases s
  on_goal 2 => exact h
  all_goals
    rw [hs] at h
    cases h

/-- A step is a frame tick, changes nothing (a quit), or runs one instruction in a state that differs from the one before
only in PC, the outputs of the fetch and the step's own bookkeeping. -/
theorem step_runs {s t : State} (h : step s = .next t) :
    (∃ rest, s.schedule = .tick :: rest ∧ t = (s.setSchedule rest).frameTick) ∨ t = s ∨
    ∃ (i : Instr) (r : State), s.Runs i ∧ exec i r = .next t ∧ r.sp = s.sp ∧
      ChangesOnly s r (fun p => p = .pc ∨ p = .errors ∨ p = .result ∨ p = .input ∨ p = .schedule ∨ p = .draws) := by
  obtain ⟨inp, rest, h1, h2⟩ | ⟨h1, h2⟩ | ⟨rest, h1, h2⟩ | ⟨_, h1, h2⟩ := step_cases s <;> rw [h] at h2
  · refine Or.inr (Or.inr ⟨_, _, ⟨Or.inr ⟨_, _, h1⟩, rfl⟩, h2.symm, by simp, fun p hp => ?_⟩)
    cases p <;> simp_all [SamePart, State.handlerState, State.beginStep]
  · refine Or.inr (Or.inr ⟨_, _, ⟨Or.inl h1, rfl⟩, h2.symm, by simp, fun p hp => ?_⟩)
    cases p <;> simp_all [SamePart, State.handlerState, State.beginStep]
  · injection h2 with h2
    exact Or.inl ⟨rest, h1, h2⟩
  · injection h2 with h2
    exact Or.inr (Or.inl h2)

/-- A run of one more step, when the first step gives a next state. -/
theorem run_succ {s t : State} (n : Nat) (h : step s = .next t) :
    Host.Core.run Sys2Proof.core (n + 1) s = Host.Core.run Sys2Proof.core n t := by
  have e := Host.Core.run.eq_2 Sys2Proof.core s n
  rw [show Sys2Proof.core.step s = .next t from h] at e
  exact e

@[simp] theorem State.handlerState_readByte (s : State) (inp : StepInput) (a : Nat) :
    (s.handlerState inp).readByte a = s.readByte a := by
  simp [State.handlerState, State.beginStep]

/-! ## The store's canonical form -/

theorem State.memWrite_wf {s : State} (a : Nat) (x : Byte) (h : s.mem.wf = true) : (s.memWrite a x).mem.wf = true := by
  rw [State.memWrite_mem]
  split
  · next g =>
    have := (inStore_iff a).mp g
    exact Memory.wf_write _ (by simp only [Config.storeSize]; omega) h
  · exact h

theorem State.storeRegs_wf {s : State} (n : Nat) (h : s.mem.wf = true) : (s.storeRegs n).mem.wf = true := by
  induction n with
  | zero => exact h
  | succ n ih => exact State.memWrite_wf _ _ ih

/-! ## Inputs are carried along -/

theorem State.memWrite_setInput (s : State) (a : Nat) (x : Byte) (inp : StepInput) :
    (s.setInput inp).memWrite a x = (s.memWrite a x).setInput inp := by
  unfold State.memWrite
  split <;> rfl

theorem State.memRead_setInput (s : State) (a : Nat) (inp : StepInput) :
    ((s.setInput inp).memRead a).2 = (s.memRead a).2.setInput inp := by
  unfold State.memRead
  simp only
  split <;> rfl

theorem State.storeRegs_setInput (s : State) (n : Nat) (inp : StepInput) :
    (s.setInput inp).storeRegs n = (s.storeRegs n).setInput inp := by
  induction n with
  | zero => rfl
  | succ n ih =>
    simp only [State.storeRegs, ih]
    exact State.memWrite_setInput _ _ _ _

theorem State.loadRegs_setInput (s : State) (n : Nat) (inp : StepInput) :
    (s.setInput inp).loadRegs n = (s.loadRegs n).setInput inp := by
  induction n with
  | zero => rfl
  | succ n ih =>
    simp only [State.loadRegs, ih, State.setInput_ea, State.memRead_setInput]
    rfl

theorem State.drawRows_setInput (s : State) (cx cy : Byte) (n : Nat) (inp : StepInput) :
    (s.setInput inp).drawRows cx cy n = (s.drawRows cx cy n).setInput inp := by
  induction n with
  | zero => rfl
  | succ n ih =>
    simp only [State.drawRows, State.drawRow, ih, State.setInput_ea, State.memRead_setInput]
    simp only [State.setInput_fb, State.memRead_fb, State.memRead_val, State.setInput_readByte]
    unfold State.afterRow
    split <;> rfl

/-! ## Errors reported before are carried along -/

/-- What one access at `a` adds to the error output. -/
def accessError (kind : AccessKind) (a : Nat) : List ErrorRecord := if inStore a then [] else [.addressing kind a]

theorem State.memWrite_setErrors (s : State) (a : Nat) (x : Byte) (es : List ErrorRecord) :
    (s.setErrors es).memWrite a x = (s.memWrite a x).setErrors (es ++ accessError .write a) := by
  unfold State.memWrite accessError
  by_cases hi : inStore a
  · simp only [hi, if_true, List.append_nil]
    rfl
  · simp only [hi, State.report]
    rfl

theorem State.memRead_setErrors (s : State) (a : Nat) (es : List ErrorRecord) :
    ((s.setErrors es).memRead a).2 = (s.memRead a).2.setErrors (es ++ accessError .read a) := by
  unfold State.memRead accessError
  by_cases hi : inStore a
  · simp [hi]
  · simp only [hi, State.report]
    rfl

theorem State.storeRegs_setErrors (s : State) (n : Nat) (es : List ErrorRecord) :
    (s.setErrors es).storeRegs n = (s.storeRegs n).setErrors (es ++ accessErrors .write s n) := by
  induction n with
  | zero => simp [accessErrors_zero, State.storeRegs]
  | succ n ih =>
    simp only [State.storeRegs, ih]
    rw [accessErrors_succ, ← List.append_assoc]
    exact State.memWrite_setErrors _ _ _ _

theorem State.loadRegs_setErrors (s : State) (n : Nat) (es : List ErrorRecord) :
    (s.setErrors es).loadRegs n = (s.loadRegs n).setErrors (es ++ accessErrors .read s n) := by
  induction n with
  | zero => simp [accessErrors_zero, State.loadRegs]
  | succ n ih =>
    simp only [State.loadRegs, ih]
    rw [accessErrors_succ, ← List.append_assoc]
    simp only [State.setErrors_ea, State.memRead_setErrors]
    rfl

theorem State.drawRows_setErrors (s : State) (cx cy : Byte) (n : Nat) (es : List ErrorRecord) :
    (s.setErrors es).drawRows cx cy n = (s.drawRows cx cy n).setErrors (es ++ accessErrors .read s n) := by
  induction n with
  | zero => simp [accessErrors_zero, State.drawRows]
  | succ n ih =>
    simp only [State.drawRows, State.drawRow, ih]
    rw [accessErrors_succ, ← List.append_assoc]
    simp only [State.setErrors_ea, State.drawRows_ea, State.memRead_setErrors, State.setErrors_fb, State.memRead_fb,
      State.memRead_val, State.setErrors_readByte]
    unfold State.afterRow
    split <;> rfl

end Sys2Proof.Machine
end

