-- ==== Sys2Proof/Laws/PerInstr.lean ====
section
/-! SUPPORT. The statements made per instruction. `EncodesInRow`: the word of an instruction has the fixed bits of the
instruction's row of spec/opcode_table.json. -/

namespace Sys2Proof.Laws.EncodesInRow

/-- The instruction's word matches its row of the opcode table. -/
def Statement (i : Instr) : Prop := (rowOf i).selects (encode i) = true

theorem cls : Statement .cls := by
  unfold Statement
  decide

theorem ret : Statement .ret := by
  unfold Statement
  decide

theorem sys (nnn : Addr12) : Statement (.sys nnn) := selects_of_family _ (famOf_encNNN _ _)

theorem jp (nnn : Addr12) : Statement (.jp nnn) := selects_of_family _ (famOf_encNNN _ _)

theorem call (nnn : Addr12) : Statement (.call nnn) := selects_of_family _ (famOf_encNNN _ _)

theorem seImm (x : Reg) (kk : Byte) : Statement (.seImm x kk) := selects_of_family _ (famOf_encXKK _ _ _)

theorem sneImm (x : Reg) (kk : Byte) : Statement (.sneImm x kk) := selects_of_family _ (famOf_encXKK _ _ _)

theorem seReg (x y : Reg) (n : Nibble) : Statement (.seReg x y n) := selects_of_family _ (famOf_encXYN _ _ _ _)

theorem ldImm (x : Reg) (kk : Byte) : Statement (.ldImm x kk) := selects_of_family _ (famOf_encXKK _ _ _)

theorem addImm (x : Reg) (kk : Byte) : Statement (.addImm x kk) := selects_of_family _ (famOf_encXKK _ _ _)

theorem ldReg (x y : Reg) : Statement (.ldReg x y) :=
  selects_of_family_nibble _ (famOf_encXYN _ _ _ _) (nOf_encXYN _ _ _ _)

theorem orReg (x y : Reg) : Statement (.orReg x y) :=
  selects_of_family_nibble _ (famOf_encXYN _ _ _ _) (nOf_encXYN _ _ _ _)

theorem andReg (x y : Reg) : Statement (.andReg x y) :=
  selects_of_family_nibble _ (famOf_encXYN _ _ _ _) (nOf_encXYN _ _ _ _)

theorem xorReg (x y : Reg) : Statement (.xorReg x y) :=
  selects_of_family_nibble _ (famOf_encXYN _ _ _ _) (nOf_encXYN _ _ _ _)

theorem addReg (x y : Reg) : Statement (.addReg x y) :=
  selects_of_family_nibble _ (famOf_encXYN _ _ _ _) (nOf_encXYN _ _ _ _)

theorem subReg (x y : Reg) : Statement (.subReg x y) :=
  selects_of_family_nibble _ (famOf_encXYN _ _ _ _) (nOf_encXYN _ _ _ _)

theorem shr (x y : Reg) : Statement (.shr x y) :=
  selects_of_family_nibble _ (famOf_encXYN _ _ _ _) (nOf_encXYN _ _ _ _)

theorem subnReg (x y : Reg) : Statement (.subnReg x y) :=
  selects_of_family_nibble _ (famOf_encXYN _ _ _ _) (nOf_encXYN _ _ _ _)

theorem shl (x y : Reg) : Statement (.shl x y) :=
  selects_of_family_nibble _ (famOf_encXYN _ _ _ _) (nOf_encXYN _ _ _ _)

theorem nop8 (x y : Reg) (n : Nibble) : Statement (.nop8 x y n) := selects_of_family _ (famOf_encXYN _ _ _ _)

theorem sneReg (x y : Reg) (n : Nibble) : Statement (.sneReg x y n) := selects_of_family _ (famOf_encXYN _ _ _ _)

theorem ldI (nnn : Addr12) : Statement (.ldI nnn) := selects_of_family _ (famOf_encNNN _ _)

theorem jpV0 (nnn : Addr12) : Statement (.jpV0 nnn) := selects_of_family _ (famOf_encNNN _ _)

theorem rnd (x : Reg) (kk : Byte) : Statement (.rnd x kk) := selects_of_family _ (famOf_encXKK _ _ _)

theorem drw (x y : Reg) (n : Nibble) : Statement (.drw x y n) := selects_of_family _ (famOf_encXYN _ _ _ _)

theorem skp (x : Reg) : Statement (.skp x) := by
  revert x
  unfold Statement
  decide

theorem sknp (x : Reg) : Statement (.sknp x) := by
  revert x
  unfold Statement
  decide

theorem nopE (x : Reg) (kk : Byte) : Statement (.nopE x kk) := selects_of_family _ (famOf_encXKK _ _ _)

theorem ldVxDt (x : Reg) : Statement (.ldVxDt x) := by
  revert x
  unfold Statement
  decide

theorem ldVxK (x : Reg) : Statement (.ldVxK x) := by
  revert x
  unfold Statement
  decide

theorem ldDtVx (x : Reg) : Statement (.ldDtVx x) := by
  revert x
  unfold Statement
  decide

theorem ldStVx (x : Reg) : Statement (.ldStVx x) := by
  revert x
  unfold Statement
  decide

theorem addI (x : Reg) : Statement (.addI x) := by
  revert x
  unfold Statement
  decide

theorem ldF (x : Reg) : Statement (.ldF x) := by
  revert x
  unfold Statement
  decide

theorem ldB (x : Reg) : Statement (.ldB x) := by
  revert x
  unfold Statement
  decide

theorem stRegs (x : Reg) : Statement (.stRegs x) := by
  revert x
  unfold Statement
  decide

theorem ldRegs (x : Reg) : Statement (.ldRegs x) := by
  revert x
  unfold Statement
  decide

theorem nopF (x : Reg) (kk : Byte) : Statement (.nopF x kk) := selects_of_family _ (famOf_encXKK _ _ _)

end Sys2Proof.Laws.EncodesInRow
end

