-- ==== Sys2Proof/Tests/Slice0.lean ====
section
/-! SUPPORT. The model's own tests: the well-formedness check, the decoding of words written out from the spec's encodings,
one step on a small state for each instruction (expected values from spec/95_test_vectors.md, whose vector is named), and for
each obligation with hypotheses a concrete case that meets them. -/

namespace Sys2Proof.Tests.Slice0

open Sys2Proof.Machine

/-! ## Helpers -/

/-- The outcome is a next state that passes a check. -/
def after (o : Host.Outcome State Fault Refusal) (p : State → Bool) : Bool :=
  match o with
  | .next t => p t
  | .fault _ => false
  | .refused _ => false

theorem exists_of_after {o : Host.Outcome State Fault Refusal} {p : State → Bool} (h : after o p = true) :
    ∃ t, o = .next t ∧ p t = true := by
  cases o with
  | next t => exact ⟨t, rfl, h⟩
  | fault r => cases h
  | refused r => cases h

/-- A state with registers written. -/
def withRegs (rs : List (Reg × Byte)) (s : State) : State := rs.foldl (fun t p => t.setReg p.1 p.2) s

/-- A state with bytes of the store written. -/
def withBytes (bs : List (Nat × Byte)) (s : State) : State := bs.foldl (fun t p => t.memWrite p.1 p.2) s

/-- A state with cells of the framebuffer on. -/
def withCells (cs : List (Fin 32 × Fin 64)) (s : State) : State :=
  s.setFb (cs.foldl (fun f c => setPixel f c.1 c.2 true) s.fb)

/-- One `step()` of the word `w`, with the inputs `inp`, from `s`. -/
def stepOf (inp : StepInput) (w : Nat) (s : State) : Host.Outcome State Fault Refusal :=
  step ((s.setSchedule [.cpu inp]).withFetchWord 16 w)

/-- No key, random byte 0x00: the default of the vectors. -/
def idle : StepInput := State.noInput

/-- One key held, and chosen. -/
def holding (k : Key) : StepInput := { idle with keys := idle.keys.set k.toNat true k.isLt, choice := k }

/-- A random byte. -/
def drawing (b : Byte) : StepInput := { idle with rand := b }

/-! ## Well-formedness -/

theorem test_wf_refuses_sys_of_cls : (Instr.sys 0x0E0).wf = false := by decide
theorem test_wf_refuses_sys_of_ret : (Instr.sys 0x0EE).wf = false := by decide
theorem test_wf_refuses_nop8_of_add : (Instr.nop8 0 1 0x4).wf = false := by decide
theorem test_wf_refuses_nopE_of_skp : (Instr.nopE 5 0x9E).wf = false := by decide
theorem test_wf_refuses_nopF_of_ldVxDt : (Instr.nopF 3 0x07).wf = false := by decide
theorem test_wf_admits_nops :
    (Instr.sys 0x123).wf ∧ (Instr.nop8 0 1 0xF).wf ∧ (Instr.nopE 0 0x00).wf ∧ (Instr.nopF 0 0x85).wf := by decide

/-! ## Decoding, every constructor (30_encoding.md R94–R102: the word is written out, the instruction is read) -/

theorem test_decode_family_0 : decode 0b0000000011100000#16 = .cls ∧ decode 0b0000000011101110#16 = .ret ∧
    decode 0b0000000100100011#16 = .sys 0x123 ∧ decode 0x0000 = .sys 0x000 := by decide
theorem test_decode_jumps : decode 0b0001001000110100#16 = .jp 0x234 ∧ decode 0b0010001000010000#16 = .call 0x210 ∧
    decode 0b1011111111111111#16 = .jpV0 0xFFF := by decide
theorem test_decode_skips : decode 0b0011001000010001#16 = .seImm 2 0x11 ∧ decode 0b0100001000010001#16 = .sneImm 2 0x11 ∧
    decode 0b0101000000010111#16 = .seReg 0 1 7 ∧ decode 0b1001000100100101#16 = .sneReg 1 2 5 := by decide
theorem test_decode_immediates : decode 0b0110000000000101#16 = .ldImm 0 0x05 ∧ decode 0b0111001100000010#16 = .addImm 3 0x02 ∧
    decode 0b1100001100001111#16 = .rnd 3 0x0F := by decide
theorem test_decode_family_8_low : decode 0x8120 = .ldReg 1 2 ∧ decode 0x8121 = .orReg 1 2 ∧ decode 0x8122 = .andReg 1 2 ∧
    decode 0x8123 = .xorReg 1 2 ∧ decode 0b1000000100100100#16 = .addReg 1 2 := by decide
theorem test_decode_family_8_high : decode 0x8125 = .subReg 1 2 ∧ decode 0x8126 = .shr 1 2 ∧ decode 0x8127 = .subnReg 1 2 ∧
    decode 0x812E = .shl 1 2 ∧ decode 0x8128 = .nop8 1 2 8 ∧ decode 0x812F = .nop8 1 2 0xF := by decide
theorem test_decode_index_display : decode 0b1010001100000000#16 = .ldI 0x300 ∧
    decode 0b1101101010110101#16 = .drw 0xA 0xB 5 := by decide
theorem test_decode_family_E : decode 0b1110010110011110#16 = .skp 5 ∧ decode 0b1110010110100001#16 = .sknp 5 ∧
    decode 0xE000 = .nopE 0 0x00 := by decide
theorem test_decode_family_F_timers : decode 0xF307 = .ldVxDt 3 ∧ decode 0xF30A = .ldVxK 3 ∧ decode 0xF015 = .ldDtVx 0 ∧
    decode 0xF218 = .ldStVx 2 := by decide
theorem test_decode_family_F_index : decode 0xF21E = .addI 2 ∧ decode 0b1111000100101001#16 = .ldF 1 ∧ decode 0xF033 = .ldB 0 ∧
    decode 0xF155 = .stRegs 1 ∧ decode 0xF265 = .ldRegs 2 ∧ decode 0xF085 = .nopF 0 0x85 := by decide
/-- R64: the high byte stands first. -/
theorem test_decodeTableWord : decodeTableWord 16 0x00E0 = some .cls ∧ decodeTableWord 16 0xDAB5 = some (.drw 0xA 0xB 5) := by
  decide
theorem test_decodeBytes_refuses_one_byte : decodeBytes [0x12] = .error .truncated := rfl

/-! ## Fetch (vectors FD2, FD4, FD6) -/

theorem test_fetch_straddles_the_end :
    after (step ((withBytes [(0xFFF, 0x12)] State.reset).setPc 0xFFF |>.setSchedule [.cpu idle]))
      (fun t => t.pc == 0x200 && t.errors == [.addressing .read 0x1000]) = true := by decide
theorem test_fetch_at_FFFF_reads_10000 :
    after (step ((State.reset.setPc 0xFFFF).setSchedule [.cpu idle]))
      (fun t => t.pc == 0x0001 && t.errors == [.addressing .read 0xFFFF, .addressing .read 0x10000]) = true := by decide

/-! ## Control flow -/

theorem test_CF1_sys : after (stepOf idle 0x0123 State.reset) (fun t => t.pc == 0x202 && t.errors == []) = true := by decide
theorem test_CF2_ret : after (stepOf idle 0x00EE (((State.reset.setPc 0x212).setSp 0).setSlot 0 0x206))
    (fun t => t.pc == 0x206 && t.sp == -1 && t.slot 0 == 0x206) = true := by decide
theorem test_CF3_ret_underflow : after (stepOf idle 0x00EE (State.reset.setPc 0x300))
    (fun t => t.pc == 0x302 && t.sp == -1 && t.errors == [.stackUnderflow 0x302]) = true := by decide
theorem test_CF5_jp_odd : after (stepOf idle 0x1201 State.reset) (fun t => t.pc == 0x201) = true := by decide
theorem test_CF6_call : after (stepOf idle 0x2210 (State.reset.setPc 0x204))
    (fun t => t.pc == 0x210 && t.sp == 0 && t.slot 0 == 0x206) = true := by decide
theorem test_CF7_call_overflow :
    after (stepOf idle 0x2400 { State.reset with pc := 0x300, sp := 15, stack := Vector.replicate 16 0x202 })
      (fun t => t.pc == 0x302 && t.sp == 15 && t.slot 15 == 0x202 && t.errors == [.stackOverflow 0x302]) = true := by decide
theorem test_CF8_seImm_skips : after (stepOf idle 0x3211 (withRegs [(2, 0x11)] State.reset)) (fun t => t.pc == 0x204) = true := by
  decide
theorem test_CF9_seImm_not : after (stepOf idle 0x3211 (withRegs [(2, 0x12)] State.reset)) (fun t => t.pc == 0x202) = true := by
  decide
theorem test_CF10_sneImm_skips : after (stepOf idle 0x4211 (withRegs [(2, 0x12)] State.reset)) (fun t => t.pc == 0x204) = true := by
  decide
theorem test_CF11_sneImm_not : after (stepOf idle 0x4211 (withRegs [(2, 0x11)] State.reset)) (fun t => t.pc == 0x202) = true := by
  decide
theorem test_CF13_seReg_ignores_nibble :
    after (stepOf idle 0x5017 (withRegs [(0, 5), (1, 5)] State.reset)) (fun t => t.pc == 0x204) = true := by decide
theorem test_CF14_seReg_not :
    after (stepOf idle 0x5010 (withRegs [(0, 5), (1, 6)] State.reset)) (fun t => t.pc == 0x202) = true := by decide
theorem test_CF15_sneReg_skips :
    after (stepOf idle 0x9010 (withRegs [(0, 1), (1, 2)] State.reset)) (fun t => t.pc == 0x204) = true := by decide
theorem test_CF16_sneReg_same : after (stepOf idle 0x9005 (withRegs [(0, 1)] State.reset)) (fun t => t.pc == 0x202) = true := by
  decide
theorem test_CF19_jpV0_not_masked :
    after (stepOf idle 0xBFFF (withRegs [(0, 0xFF)] State.reset)) (fun t => t.pc == 0x10FE) = true := by decide

/-! ## Arithmetic and logic -/

theorem test_AL2_ldImm_VF : after (stepOf idle 0x6FAA State.reset) (fun t => t.reg VF == 0xAA && t.pc == 0x202) = true := by decide
theorem test_AL3_addImm_no_flag : after (stepOf idle 0x7302 (withRegs [(3, 0xFF), (VF, 0x77)] State.reset))
    (fun t => t.reg 3 == 0x01 && t.reg VF == 0x77) = true := by decide
theorem test_AL4_ldReg : after (stepOf idle 0x8010 (withRegs [(1, 0x42)] State.reset)) (fun t => t.reg 0 == 0x42) = true := by decide
theorem test_AL5_ldReg_parameter_false :
    after (stepOf idle 0x8010 (withRegs [(1, 0x42)] { State.reset with move8xy0 := false }))
      (fun t => t.reg 0 == 0x00 && t.pc == 0x202) = true := by decide
theorem test_AL6_or : after (stepOf idle 0x8011 (withRegs [(0, 0x0F), (1, 0xF0), (VF, 0x55)] State.reset))
    (fun t => t.reg 0 == 0xFF && t.reg VF == 0x55) = true := by decide
theorem test_AL7_and : after (stepOf idle 0x8012 (withRegs [(0, 0x3C), (1, 0x0F), (VF, 0x55)] State.reset))
    (fun t => t.reg 0 == 0x0C && t.reg VF == 0x55) = true := by decide
theorem test_AL8_xor : after (stepOf idle 0x8013 (withRegs [(0, 0x3C), (1, 0x0F), (VF, 0x55)] State.reset))
    (fun t => t.reg 0 == 0x33 && t.reg VF == 0x55) = true := by decide
theorem test_AL13_add_into_VF : after (stepOf idle 0x8F14 (withRegs [(VF, 0x10), (1, 0xF0)] State.reset))
    (fun t => t.reg VF == 0x01) = true := by decide
theorem test_AL14_add_reads_VF_first : after (stepOf idle 0x80F4 (withRegs [(0, 0xFF), (VF, 0x02)] State.reset))
    (fun t => t.reg 0 == 0x01 && t.reg VF == 0x01) = true := by decide
theorem test_AL16_sub_equal : after (stepOf idle 0x8015 (withRegs [(0, 5), (1, 5)] State.reset))
    (fun t => t.reg 0 == 0x00 && t.reg VF == 0x01) = true := by decide
theorem test_AL17_sub_borrow : after (stepOf idle 0x8015 (withRegs [(1, 1), (VF, 1)] State.reset))
    (fun t => t.reg 0 == 0xFF && t.reg VF == 0x00) = true := by decide
theorem test_AL21_shr_VF : after (stepOf idle 0x8F06 (withRegs [(VF, 2)] State.reset)) (fun t => t.reg VF == 0x00) = true := by decide
theorem test_AL22_shr_ignores_y : after (stepOf idle 0x8016 (withRegs [(0, 4), (1, 0xFF)] State.reset))
    (fun t => t.reg 0 == 0x02 && t.reg VF == 0x00) = true := by decide
theorem test_AL23_subn_borrow : after (stepOf idle 0x8017 (withRegs [(0, 5), (1, 3), (VF, 1)] State.reset))
    (fun t => t.reg 0 == 0xFE && t.reg VF == 0x00) = true := by decide
theorem test_AL24_subn : after (stepOf idle 0x8017 (withRegs [(0, 3), (1, 5)] State.reset))
    (fun t => t.reg 0 == 0x02 && t.reg VF == 0x01) = true := by decide
theorem test_AL27_shl : after (stepOf idle 0x800E (withRegs [(0, 0x40), (VF, 1)] State.reset))
    (fun t => t.reg 0 == 0x80 && t.reg VF == 0x00) = true := by decide
theorem test_AL28_shl_VF : after (stepOf idle 0x8FFE (withRegs [(VF, 0x81)] State.reset)) (fun t => t.reg VF == 0x01) = true := by
  decide
theorem test_AL29_nop8 : after (stepOf idle 0x8018 (withRegs [(0, 1), (1, 2)] State.reset))
    (fun t => t.pc == 0x202 && t.reg 0 == 1 && t.reg VF == 0) = true := by decide
theorem test_AL31_rnd : after (stepOf (drawing 0xB7) 0xC30F State.reset) (fun t => t.reg 3 == 0x07) = true := by decide
theorem test_AL33_rnd_VF : after (stepOf (drawing 0x5A) 0xCFFF State.reset) (fun t => t.reg VF == 0x5A) = true := by decide

/-! ## Index register and memory -/

theorem test_IM2_ldI : after (stepOf idle 0xAFFF (State.reset.setI 0x1234)) (fun t => t.i == 0x0FFF) = true := by decide
theorem test_IM3_addI_no_flag : after (stepOf idle 0xF21E (withRegs [(2, 0x10), (VF, 0x99)] (State.reset.setI 0x300)))
    (fun t => t.i == 0x310 && t.reg VF == 0x99) = true := by decide
theorem test_IM5_addI_wraps : after (stepOf idle 0xF11E (withRegs [(1, 1)] (State.reset.setI 0xFFFF))) (fun t => t.i == 0) = true := by
  decide
theorem test_IM7_ldF_high_nibble : after (stepOf idle 0xF129 (withRegs [(1, 0x1A)] State.reset)) (fun t => t.i == 0x032) = true := by
  decide
theorem test_IM9_ldB : after (stepOf idle 0xF033 (withRegs [(0, 0xFE)] (State.reset.setI 0x300)))
    (fun t => t.readByte 0x300 == 2 && t.readByte 0x301 == 5 && t.readByte 0x302 == 4 && t.i == 0x300) = true := by decide
theorem test_IM13_ldB_at_the_end : after (stepOf idle 0xF033 (withRegs [(0, 0x7B)] (State.reset.setI 0xFFE)))
    (fun t => t.readByte 0xFFE == 1 && t.readByte 0xFFF == 2 && t.errors == [.addressing .write 0x1000]) = true := by decide
theorem test_IM15_stRegs_one : after (stepOf idle 0xF055 (withRegs [(0, 7), (1, 8)] (State.reset.setI 0x400)))
    (fun t => t.readByte 0x400 == 7 && t.readByte 0x401 == 0 && t.i == 0x400) = true := by decide
theorem test_IM17_stRegs_at_the_end : after (stepOf idle 0xF255 (withRegs [(0, 0xA), (1, 0xB), (2, 0xC)] (State.reset.setI 0xFFE)))
    (fun t => t.readByte 0xFFE == 0xA && t.readByte 0xFFF == 0xB && t.errors == [.addressing .write 0x1000]) = true := by decide
theorem test_IM18_ldRegs : after (stepOf idle 0xF265 (withBytes [(0x300, 2), (0x301, 5), (0x302, 4)] (State.reset.setI 0x300)))
    (fun t => t.reg 0 == 2 && t.reg 1 == 5 && t.reg 2 == 4 && t.i == 0x300) = true := by decide
theorem test_IM19_ldRegs_at_the_end :
    after (stepOf idle 0xF165 (withBytes [(0xFFF, 0x77)] (withRegs [(0, 9), (1, 9)] (State.reset.setI 0xFFF))))
      (fun t => t.reg 0 == 0x77 && t.reg 1 == 0x00 && t.errors == [.addressing .read 0x1000]) = true := by decide

/-! ## Display -/

theorem test_DR1_cls : after (stepOf idle 0x00E0 (withRegs [(VF, 3)] (withCells [(0, 0), (10, 10), (31, 63)] State.reset)))
    (fun t => !pixel t.fb 0 0 && !pixel t.fb 10 10 && !pixel t.fb 31 63 && t.reg VF == 3) = true := by decide
theorem test_DR2_drw_wraps_in_its_row :
    after (stepOf idle 0xD011 (withBytes [(0x300, 0xFF)] (withRegs [(0, 60)] (State.reset.setI 0x300))))
      (fun t => pixel t.fb 0 60 && pixel t.fb 0 63 && pixel t.fb 0 0 && pixel t.fb 0 3 && !pixel t.fb 0 59 && !pixel t.fb 0 4
        && !pixel t.fb 1 0 && t.reg VF == 0) = true := by decide
theorem test_DR5_drw_collides :
    after (stepOf idle 0xD011 (withBytes [(0x300, 0xC0)] (withCells [(0, 1)] (State.reset.setI 0x300))))
      (fun t => pixel t.fb 0 0 && !pixel t.fb 0 1 && !pixel t.fb 0 2 && t.reg VF == 1) = true := by decide

/-! ## Keys and timers -/

theorem test_KT1_skp : after (stepOf (holding 0xA) 0xE59E (withRegs [(5, 0x0A)] State.reset)) (fun t => t.pc == 0x204) = true := by
  decide
theorem test_KT5_skp_above_15 : after (stepOf (holding 0xA) 0xE59E (withRegs [(5, 0x1A)] State.reset))
    (fun t => t.pc == 0x202) = true := by decide
theorem test_KT3_sknp : after (stepOf idle 0xE5A1 (withRegs [(5, 0x0A)] State.reset)) (fun t => t.pc == 0x204) = true := by decide
theorem test_KT4_sknp_held : after (stepOf (holding 0xA) 0xE5A1 (withRegs [(5, 0x0A)] State.reset)) (fun t => t.pc == 0x202) = true := by
  decide
theorem test_KT7_nopE : after (stepOf idle 0xE000 State.reset) (fun t => t.pc == 0x202) = true := by decide
theorem test_KT8_ldVxDt : after (stepOf idle 0xF307 (State.reset.setDt 0x3C)) (fun t => t.reg 3 == 0x3C) = true := by decide
theorem test_KT9_ldVxK_retries : after (stepOf idle 0xF30A (State.reset.setPc 0x300))
    (fun t => t.pc == 0x300 && t.result == .retry && t.reg 3 == 0) = true := by decide
theorem test_KT11_ldVxK_VF : after (stepOf (holding 0xC) 0xFF0A (withRegs [(VF, 1)] (State.reset.setPc 0x300)))
    (fun t => t.pc == 0x302 && t.result == .completed && t.reg VF == 0x0C) = true := by decide
theorem test_KT12_ldDtVx : after (stepOf idle 0xF015 (withRegs [(0, 5)] State.reset)) (fun t => t.dt == 5 && t.st == 0) = true := by
  decide
theorem test_KT13_ldStVx : after (stepOf idle 0xF218 (withRegs [(2, 0x10)] State.reset)) (fun t => t.st == 0x10 && t.dt == 0) = true := by
  decide
theorem test_KT16_nopF : after (stepOf idle 0xF085 State.reset) (fun t => t.pc == 0x202) = true := by decide
theorem test_TT3_tick : after (step { State.reset with dt := 2, st := 1, schedule := [.tick] })
    (fun t => t.dt == 1 && t.st == 0 && t.presented.length == 1 && t.pc == 0x200) = true := by decide

/-! ## The host's side -/

/-- R256: the image stands at 0x200, and the schedule and the parameter are those given. -/
theorem test_launch : after (launch (Vector.replicate 80 0x11) (fun _ => 0x22) false [0x60, 0x05] [.tick])
    (fun t => t.pc == 0x200 && t.schedule == [.tick] && !t.move8xy0 && t.errors == []) = true := by decide

/-- D24: an image of 0xE01 bytes is outside the interface. -/
theorem test_launch_refuses_a_long_image :
    launch (Vector.replicate 80 0) (fun _ => 0) true (List.replicate 0xE01 0) [] = .refused .imageTooLong :=
  if_neg (by rw [List.length_replicate]; decide)

/-- The word stands at PC, high byte first, and a tick before the next step is dropped. -/
theorem test_withFetchWord : (({ State.reset with schedule := [.tick, .cpu idle] }).withFetchWord 16 0xDAB5).nextWord = 0xDAB5 ∧
    (({ State.reset with schedule := [.tick, .cpu idle] }).withFetchWord 16 0xDAB5).schedule = [.cpu idle] := by decide

/-- With PC outside the store the word stands at 0x200 and PC goes there. -/
theorem test_withFetchWord_outside : ((State.reset.setPc 0xFFF).withFetchWord 16 0x6005).pc = 0x200 ∧
    ((State.reset.setPc 0xFFF).withFetchWord 16 0x6005).nextWord = 0x6005 := by decide

/-- Log 10: drawn twice over a cell that was on at the start, the second draw finds the cell off, so R201 clears VF and the
clause of R202 that VF is 1 does not hold. -/
theorem test_second_draw_over_a_lit_cell :
    after (stepOf idle 0xD011 (withBytes [(0x300, 0x80)] (withCells [(0, 0)] (State.reset.setI 0x300))))
      (fun t => t.reg VF == 1 && after (stepOf idle 0xD011 t) (fun u => pixel u.fb 0 0 && u.reg VF == 0)) = true := by decide

/-- Four cells on, exactly those that the 1-row sprite 0xF0 of the default font covers at (0, 0). -/
def litSprite : State := withCells [(0, 0), (0, 1), (0, 2), (0, 3)] State.reset

theorem test_litSprite_is_its_sprite : ∀ r c, pixel litSprite.fb r c = spriteCovers litSprite 0 0 1 r c := by decide +kernel

/-- Log 10, for ANY draw and not only the model's: one that toggles the covered cells and sets VF by R201's sentence "VF = 1 iff
at least one on pixel was turned off by this draw" does not meet R202's clause on VF. -/
theorem test_no_draw_meets_R201_and_the_clause_of_R202 (draw : State → State)
    (toggles : ∀ s r c, pixel (draw s).fb r c = (pixel s.fb r c ^^ spriteCovers s 0 0 1 r c))
    (flag : ∀ s, (draw s).reg VF = 1 ↔ ∃ r c, pixel s.fb r c = true ∧ pixel (draw s).fb r c = false) :
    spriteCovers litSprite 0 0 1 0 0 = true ∧ (draw (draw litSprite)).reg VF ≠ 1 := by
  refine ⟨by decide, fun h => ?_⟩
  obtain ⟨r, c, hon, -⟩ := (flag _).mp h
  rw [toggles, test_litSprite_is_its_sprite, Bool.xor_self] at hon
  cases hon

/-! ## For each obligation with hypotheses, a case that meets them

A clause of its own has a case of its own, at the boundary of its range. -/

/-- A state whose next step is the word `w` at 0x200 without any key. -/
def ready (w : Nat) (s : State) : State := (s.setSchedule [.cpu idle]).withFetchWord 16 w

theorem witness_LaunchPlacesFontImageAndFill :
    (List.replicate 0xE00 (0x60 : Byte)).length ≤ 0xE00 ∧ 0xDFF < (List.replicate 0xE00 (0x60 : Byte)).length ∧
    0x200 + ([] : List Byte).length ≤ 0xFFF ∧ 0xE00 < (List.replicate 0xE01 (0x60 : Byte)).length := by
  simp only [List.length_replicate]
  decide

theorem witness_StoreReadsBackWhatWasWritten :
    State.reset.memRead 0xFFF = (0x00, State.reset) ∧ (State.reset.memWrite 0xFFF 7).readByte 0xFFF = 7 ∧
    (State.reset.memRead 0x1000).2.errors = [.addressing .read 0x1000] ∧
    (State.reset.memWrite 0x1000 7).errors = [.addressing .write 0x1000] := by decide

theorem witness_StoredRegistersAreFetchedAsAnInstruction :
    0 < (1 : Reg).toNat ∧ (State.reset.setI 0xFFE).i.toNat + 0 + 1 ≤ 0xFFF ∧
    14 < (15 : Reg).toNat ∧ (State.reset.setI 0xFF0).i.toNat + 14 + 1 ≤ 0xFFF := by decide

theorem witness_DecodeOfEncodeIsTheInstruction :
    (Instr.drw 0xA 0xB 5).wf = true ∧ decode (encode (.drw 0xA 0xB 5)) = .drw 0xA 0xB 5 ∧
    (Instr.nopF 0xF 0xFF).wf = true ∧ decode (encode (.nopF 0xF 0xFF)) = .nopF 0xF 0xFF := by decide

theorem witness_DecodeSelectsTheOpcodeTableRow :
    rowOf (decode 0x8008) ∈ fallbackRows ∧ rowOf (decode 0x8000) ∈ priorityRows := by decide

theorem witness_NoOpWordsChangeNothing :
    (famOf 0x00EF = 0x0#4 ∧ nnnOf 0x00EF ≠ 0x0E0#12 ∧ nnnOf 0x00EF ≠ 0x0EE#12) ∧
    (famOf 0x801F = 0x8#4 ∧ nOf 0x801F ∈ [0x8#4, 0x9#4, 0xA#4, 0xB#4, 0xC#4, 0xD#4, 0xF#4]) ∧
    (famOf 0x8010 = 0x8#4 ∧ nOf 0x8010 = 0x0#4 ∧ ({ State.reset with move8xy0 := false }).move8xy0 = false) ∧
    (famOf 0xE000 = 0xE#4 ∧ kkOf 0xE000 ≠ 0x9E#8 ∧ kkOf 0xE000 ≠ 0xA1#8) ∧
    (famOf 0xF085 = 0xF#4 ∧ kkOf 0xF085 ∉ [0x07#8, 0x0A#8, 0x15#8, 0x18#8, 0x1E#8, 0x29#8, 0x33#8, 0x55#8, 0x65#8]) := by
  decide

theorem witness_StepRunsTheDecodedInstruction :
    ((ready 0x6005 (State.reset.setPc 0xFFE)).pc.toNat < 0xFFF ∧
      decode (ready 0x6005 (State.reset.setPc 0xFFE)).nextWord = .ldImm 0 0x05 ∧
      (ready 0x6005 (State.reset.setPc 0xFFE)).schedule = [.cpu idle]) ∧
    ((State.reset.withFetchWord 16 0xC3FF).pc.toNat < 0xFFF ∧
      decode (State.reset.withFetchWord 16 0xC3FF).nextWord = .rnd 3 0xFF ∧
      (State.reset.withFetchWord 16 0xC3FF).schedule = []) := by decide

theorem witness_FetchOutsideTheStoreReportsAndGoesOn :
    (((State.reset.setPc 0x1000).setSchedule [.cpu idle]).schedule = .cpu idle :: [] ∧
      0xFFF < ((State.reset.setPc 0x1000).setSchedule [.cpu idle]).pc.toNat) ∧
    (((State.reset.setPc 0xFFF).setSchedule [.cpu idle]).schedule = .cpu idle :: [] ∧
      ((State.reset.setPc 0xFFF).setSchedule [.cpu idle]).pc.toNat = 0xFFF) ∧
    ((State.reset.setPc 0xFFFF).schedule = [] ∧ 0xFFF < (State.reset.setPc 0xFFFF).pc.toNat) ∧
    ((State.reset.setPc 0xFFF).schedule = [] ∧ (State.reset.setPc 0xFFF).pc.toNat = 0xFFF) := by decide

theorem witness_StepKeepsTheParameter : ∃ t, step { State.reset with move8xy0 := false } = .next t := ⟨_, rfl⟩

theorem witness_InputsAreReadOnlyByTheirInstructions :
    (∀ x, Instr.rnd 3 0xFF ≠ .skp x ∧ Instr.rnd 3 0xFF ≠ .sknp x ∧ Instr.rnd 3 0xFF ≠ .ldVxK x) ∧
    (holding 7).rand = (State.reset.setInput idle).input.rand ∧
    (∀ x kk, Instr.skp 5 ≠ .rnd x kk) :=
  ⟨fun _ => ⟨nofun, nofun, nofun⟩, rfl, nofun⟩

theorem witness_HeldKeyIsAnyHeldKey :
    heldKey idle = none ∧ (∀ k, keyHeld idle k = false) ∧ heldKey (holding 7) = some 7 ∧ keyHeld (holding 7) 7 = true ∧
    keyHeld (holding 0xF) 0xF = true := by decide

/-- The premise of the invariant, for a state that has just retried. -/
theorem witness_EveryStepKeepsTheInvariant :
    ∃ s t : State, s.result = .retry ∧ s.Inv ∧ step s = .next t := by
  refine ⟨(ready 0xF30A State.reset).setResult .retry, _, rfl, ⟨by decide, by decide, fun _ => ⟨3, by decide⟩⟩, rfl⟩

theorem witness_OnlyClearAndDrawChangeTheFramebuffer :
    (∃ s t : State, step s = .next t ∧ t.fb ≠ s.fb) ∧ ∃ s t : State, step s = .next t ∧ t.presented ≠ s.presented := by
  constructor
  · obtain ⟨t, h, h'⟩ := exists_of_after (o := stepOf idle 0xD005 State.reset) (p := fun t => pixel t.fb 0 0) (by decide)
    refine ⟨_, t, h, fun e => ?_⟩
    rw [e] at h'
    revert h'
    decide
  · exact ⟨{ State.reset with schedule := [.tick] }, _, rfl, fun h => absurd (congrArg List.length h) (by decide)⟩

theorem witness_OnlyCallAndReturnChangeTheStack :
    (∃ s t : State, -1 ≤ s.sp ∧ step s = .next t ∧ t.stack[0] ≠ s.stack[0] ∧ t.sp ≠ s.sp) ∧
    ∃ s t : State, -1 ≤ s.sp ∧ step s = .next t ∧ t.sp ≠ s.sp ∧ decode s.nextWord = .ret := by
  constructor
  · obtain ⟨t, h, h'⟩ := exists_of_after (o := stepOf idle 0x2210 State.reset) (p := fun t => t.stack[0] != 0 && t.sp != -1)
      (by decide)
    have h' : t.stack[0] ≠ 0 ∧ t.sp ≠ -1 := by simpa using h'
    exact ⟨_, t, by decide, h, h'⟩
  · obtain ⟨t, h, h'⟩ := exists_of_after (o := stepOf idle 0x00EE (State.reset.setSp 15)) (p := fun t => t.sp != 15) (by decide)
    have h' : t.sp ≠ 15 := by simpa using h'
    exact ⟨_, t, by decide, h, h', by decide⟩

theorem witness_OnlyNamedInstructionsWriteIndexTimersAndStore :
    (∃ s t : State, step s = .next t ∧ t.i ≠ s.i) ∧ (∃ s t : State, step s = .next t ∧ t.dt ≠ s.dt) ∧
    (∃ s t : State, step s = .next t ∧ t.st ≠ s.st) ∧ ∃ s t : State, step s = .next t ∧ t.readByte 0xFFF ≠ s.readByte 0xFFF := by
  refine ⟨?_, ?_, ?_, ?_⟩
  · obtain ⟨t, h, h'⟩ := exists_of_after (o := stepOf idle 0xAFFF State.reset) (p := fun t => t.i != 0) (by decide)
    have h' : t.i ≠ 0 := by simpa using h'
    exact ⟨_, t, h, h'⟩
  · obtain ⟨t, h, h'⟩ := exists_of_after (o := stepOf idle 0xF015 (withRegs [(0, 5)] State.reset)) (p := fun t => t.dt != 0)
      (by decide)
    have h' : t.dt ≠ 0 := by simpa using h'
    exact ⟨_, t, h, h'⟩
  · obtain ⟨t, h, h'⟩ := exists_of_after (o := stepOf idle 0xF018 (withRegs [(0, 5)] State.reset)) (p := fun t => t.st != 0)
      (by decide)
    have h' : t.st ≠ 0 := by simpa using h'
    exact ⟨_, t, h, h'⟩
  · obtain ⟨t, h, h'⟩ := exists_of_after (o := stepOf idle 0xF055 (withRegs [(0, 5)] (State.reset.setI 0xFFF)))
      (p := fun t => t.readByte 0xFFF != 0) (by decide)
    have h' : t.readByte 0xFFF ≠ 0 := by simpa using h'
    exact ⟨_, t, h, h'⟩

theorem witness_OnlyFlagInstructionsOrDestinationsWriteVF :
    ∃ t, exec (.addReg 0 1) (withRegs [(0, 0xFF), (1, 1)] State.reset) = .next t ∧
      t.reg VF ≠ (withRegs [(0, 0xFF), (1, 1)] State.reset).reg VF :=
  ⟨_, rfl, by decide⟩

theorem witness_LegacySystemCallIsANoOp : (0x0EF : Addr12) ≠ 0x0E0#12 ∧ (0x0EF : Addr12) ≠ 0x0EE#12 := by decide

theorem witness_CallPushesAndJumpsOrOverflows :
    (-1 ≤ State.reset.sp ∧ State.reset.sp < 15 ∧ ((0 : Fin 16) : Int) = State.reset.sp + 1) ∧
    (-1 ≤ (State.reset.setSp 14).sp ∧ (State.reset.setSp 14).sp < 15 ∧ ((15 : Fin 16) : Int) = (State.reset.setSp 14).sp + 1) ∧
    (State.reset.setSp 15).sp = 15 := by decide

theorem witness_ReturnPopsOrUnderflows :
    (State.reset.setSp 0).sp = ((0 : Fin 16) : Int) ∧ (State.reset.setSp 15).sp = ((15 : Fin 16) : Int) ∧ State.reset.sp = -1 := by
  decide

theorem witness_ReturnResumesAfterTheCall :
    ∃ t u : State, -1 ≤ State.reset.sp ∧ State.reset.sp < 15 ∧ exec (.call 0x300) State.reset = .next t ∧
      u.stack = t.stack ∧ u.sp = t.sp ∧ u ≠ t :=
  ⟨_, ((State.reset.setSp 0).setSlot 0 0x200).setPc 0x302, by decide, by decide, rfl, by decide, by decide,
    fun h => absurd (congrArg State.pc h) (by decide)⟩

theorem witness_SixteenCallsNestAndTheSeventeenthOverflows :
    State.reset.sp = -1 ∧ (List.replicate 16 (0x200 : Addr12)).length = 16 := by decide

theorem witness_SkipsOnKey : (0xF : Byte).toNat < 16 ∧ ¬ (0x10 : Byte).toNat < 16 := by decide

theorem witness_RegisterMoveFollowsItsParameter :
    State.reset.move8xy0 = true ∧ ({ State.reset with move8xy0 := false }).move8xy0 = false := by decide

/-- The premise that Vx is not VF, of the additions, subtractions and shifts. -/
theorem witness_AddSetsCarry_SubtractSetsNoBorrow_ShiftsPutTheLostBitInVF : (0xE : Reg) ≠ VF := by decide

theorem witness_DecimalDigitsAreStored :
    (State.reset.setI 0xFFD).i.toNat + 2 ≤ 0xFFF ∧ (State.reset.setI 0xFFE).i.toNat + 1 ≤ 0xFFF ∧
    (State.reset.setI 0xFFF).i.toNat ≤ 0xFFF := by decide

theorem witness_RegistersAreStored : (0xF : Reg).toNat ≤ (0xF : Reg).toNat ∧ (State.reset.setI 0xFF0).i.toNat + (0xF : Reg).toNat ≤ 0xFFF := by
  decide

theorem witness_RegistersAreLoaded : (1 : Reg).toNat ≤ (1 : Reg).toNat ∧ ¬ (State.reset.setI 0xFFF).i.toNat + (1 : Reg).toNat ≤ 0xFFF := by
  decide

/-- A covered cell that is on, and a covered cell that is off with every other one. -/
theorem witness_DrawTogglesExactlyTheSpriteCells :
    (spriteCovers (withCells [(0, 0)] State.reset) 0 0 1 0 0 = true ∧ pixel (withCells [(0, 0)] State.reset).fb 0 0 = true) ∧
    spriteCovers State.reset 0 0 1 0 3 = true ∧ spriteCovers State.reset 0 0 1 0 4 = false ∧ pixel State.reset.fb 0 3 = false := by
  decide

theorem witness_SecondDrawRestoresTheFramebuffer :
    ∃ t u v : State, exec (.drw 0 0 1) State.reset = .next t ∧ u.fb = t.fb ∧ u.mem = State.reset.mem ∧ u.i = State.reset.i ∧
      u.reg 0 = State.reset.reg 0 ∧ exec (.drw 0 0 1) u = .next v ∧ pixel State.reset.fb 0 0 = false ∧ pixel t.fb 0 0 = true :=
  ⟨_, _, _, rfl, rfl, rfl, rfl, by decide, rfl, by decide, by decide⟩

/-- The clauses on VF: a covered cell that is off, and, for a sprite of 4 cells, every covered cell on. -/
theorem witness_SecondDrawRestoresTheFramebuffer_flag :
    (spriteCovers State.reset 0 0 1 0 3 = true ∧ pixel State.reset.fb 0 3 = false) ∧ spriteCovers litSprite 0 0 1 0 0 = true ∧
    ∀ r c, spriteCovers litSprite 0 0 1 r c = true → pixel litSprite.fb r c = true :=
  ⟨by decide, by decide, fun r c h => (test_litSprite_is_its_sprite r c).trans h⟩

/-- The collaborator's choice is taken where that key is held, also beside a lower one, and a held key where it is not. -/
theorem witness_KeyWaitTakesAHeldKeyOrRetries :
    heldKey (State.reset.setInput { holding 0xF with keys := (holding 0xF).keys.set 3 true }).input = some 0xF ∧
    heldKey (State.reset.setInput { holding 0xF with choice := 0 }).input = some 0xF ∧
    keyHeld (State.reset.setInput (holding 0xF)).input 0xF = true ∧ ∀ k, keyHeld (State.reset.setInput idle).input k = false := by
  decide

theorem witness_WaitingChangesOnlyTheTimers :
    ∃ (s : State) (acts rest : List HostAct), s.schedule = acts ++ rest ∧ (∀ a ∈ acts, a.waits) ∧ 0 < tickCount acts ∧
      s.pc.toNat < 0xFFF ∧ decode s.nextWord = .ldVxK 3 := by
  refine ⟨((State.reset.setPc 0xFFE).withFetchWord 16 0xF30A).setSchedule [.cpu idle, .tick, .cpu idle],
    [.cpu idle, .tick, .cpu idle], [], rfl, ?_, by decide, by decide, by decide⟩
  intro a ha
  have hi : (HostAct.cpu idle).waits := fun k => by revert k; decide
  simp only [List.mem_cons, List.not_mem_nil, or_false] at ha
  rcases ha with rfl | rfl | rfl
  · exact hi
  · exact trivial
  · exact hi

theorem witness_FrameTickCountsDownAndPresents : (State.reset.setSchedule [.tick]).schedule = .tick :: [] := by decide

theorem witness_TimersReachZeroAndStay :
    ((State.reset.setDt 5).setSchedule (List.replicate 6 .tick)).schedule = List.replicate 6 .tick ++ [] := by decide

theorem witness_QuitEndsTheSession : (State.reset.setSchedule [.quit]).schedule = .quit :: [] := by decide

theorem witness_SelfJumpChangesNothing :
    (ready 0x1FFE (State.reset.setPc 0xFFE)).schedule = .cpu idle :: [] ∧ (ready 0x1FFE (State.reset.setPc 0xFFE)).pc.toNat < 0xFFF ∧
    (ready 0x1FFE (State.reset.setPc 0xFFE)).pc.toNat = (0xFFE : Addr12).toNat ∧
    decode (ready 0x1FFE (State.reset.setPc 0xFFE)).nextWord = .jp 0xFFE := by decide

end Sys2Proof.Tests.Slice0
end

section
/-! PROOFS. The parameter MOVE_8XY0 is never written (spec/00_scope.md R8): the frame of each meaning is put together from the
frames of its operations, and MOVE_8XY0 stands in no frame. -/

namespace Sys2Proof.Machine

/-! ## The frames of the operations that are not one update -/

/-- A push writes the slot above the top and SP, or reports (R42). -/
theorem changesOnly_push (s : State) (w : Word) :
    ChangesOnly s (s.push w).2
      (fun p => p = .sp ∨ p = .errors ∨ ∃ j : Fin 16, j.val = (s.sp + 1).toNat ∧ p = .slot j) := by
  by_cases h : s.sp = 15
  · rw [State.push_full s w h]
    exact (changesOnly_report s _).mono fun _ hp => Or.inr (Or.inl hp)
  · rw [State.push_room s w h]
    exact ((changesOnly_setSp s _).mono fun _ hp => Or.inl hp).trans
      ((changesOnly_setSlot _ _ w).mono fun _ hp => Or.inr (Or.inr hp))

/-- A pop writes SP only, or reports (R43). -/
theorem changesOnly_pop (s : State) : ChangesOnly s s.pop.2 (fun p => p = .sp ∨ p = .errors) := by
  by_cases h : s.sp = -1
  · rw [State.pop_empty s h]
    exact (changesOnly_report s _).mono fun _ hp => Or.inr hp
  · rw [State.pop_some s h]
    exact (changesOnly_setSp s _).mono fun _ hp => Or.inl hp

/-! ## The frames of the meanings that are not one operation -/

theorem execRet_changesOnly {s t : State} (h : execRet s = .next t) : ChangesOnly s t (mayChange s .ret) := by
  have hpop : ChangesOnly s s.pop.2 (mayChange s .ret) := (changesOnly_pop s).mono fun _ hp => Or.inr hp
  injection h with h
  subst h
  split
  · exact hpop.trans ((changesOnly_setPc _ _).mono fun _ hp => Or.inl hp)
  · exact hpop

theorem execCall_changesOnly {nnn : Addr12} {s t : State} (h : execCall nnn s = .next t) :
    ChangesOnly s t (mayChange s (.call nnn)) := by
  have hpush : ChangesOnly s (s.push s.pc).2 (mayChange s (.call nnn)) :=
    (changesOnly_push s s.pc).mono fun _ hp => Or.inr hp
  injection h with h
  subst h
  split
  · exact hpush.trans ((changesOnly_setPc _ _).mono fun _ hp => Or.inl hp)
  · exact hpush

theorem execLdReg_changesOnly {x y : Reg} {s t : State} (h : execLdReg x y s = .next t) :
    ChangesOnly s t (mayChange s (.ldReg x y)) := by
  injection h with h
  subst h
  split
  · exact changesOnly_setReg s x _
  · exact ChangesOnly.refl s _

theorem execDrw_changesOnly {x y : Reg} {n : Nibble} {s t : State} (h : execDrw x y n s = .next t) :
    ChangesOnly s t (mayChange s (.drw x y n)) := by
  injection h with h
  subst h
  exact ((changesOnly_setReg s VF 0).mono fun _ hp => Or.inl hp).trans (changesOnly_drawRows _ _ _ _)

theorem execLdVxK_changesOnly {x : Reg} {s t : State} (h : execLdVxK x s = .next t) :
    ChangesOnly s t (mayChange s (.ldVxK x)) := by
  injection h with h
  subst h
  split
  · exact (changesOnly_setReg s x _).mono fun _ hp => Or.inl hp
  · exact ((changesOnly_rewind s).mono fun _ hp => Or.inr (Or.inl hp)).trans
      ((changesOnly_setResult _ _).mono fun _ hp => Or.inr (Or.inr hp))

theorem execLdB_changesOnly {x : Reg} {s t : State} (h : execLdB x s = .next t) :
    ChangesOnly s t (mayChange s (.ldB x)) := by
  have hdigit : ∀ (u : State) (k : Nat) (b : Byte), k < 3 →
      ChangesOnly u (u.memWrite (s.ea k) b) (mayChange s (.ldB x)) := fun u k b hk =>
    (changesOnly_memWrite u _ b).mono fun _ hp => hp.imp id fun hp => ⟨k, hk, hp⟩
  injection h with h
  subst h
  exact ((hdigit _ 0 _ (by decide)).trans (hdigit _ 1 _ (by decide))).trans (hdigit _ 2 _ (by decide))

theorem execStRegs_changesOnly {x : Reg} {s t : State} (h : execStRegs x s = .next t) :
    ChangesOnly s t (mayChange s (.stRegs x)) := by
  injection h with h
  subst h
  exact (changesOnly_storeRegs s _).mono fun _ hp => hp.imp id fun ⟨k, hk, hp⟩ => ⟨k, Nat.le_of_lt_succ hk, hp⟩

theorem execLdRegs_changesOnly {x : Reg} {s t : State} (h : execLdRegs x s = .next t) :
    ChangesOnly s t (mayChange s (.ldRegs x)) := by
  injection h with h
  subst h
  exact (changesOnly_loadRegs s _ x.isLt).mono fun _ hp => hp.imp id fun ⟨r, hr, hp⟩ => ⟨r, Nat.le_of_lt_succ hr, hp⟩

/-! ## The frame of every instruction, and of every step for MOVE_8XY0 -/

/-- An instruction changes only what its rule writes (R130). -/
theorem exec_changesOnly {i : Instr} {s t : State} (h : exec i s = .next t) : ChangesOnly s t (mayChange s i) := by
  cases i
  case ret => exact execRet_changesOnly h
  case call => exact execCall_changesOnly h
  case ldReg => exact execLdReg_changesOnly h
  case drw => exact execDrw_changesOnly h
  case ldVxK => exact execLdVxK_changesOnly h
  case ldB => exact execLdB_changesOnly h
  case stRegs => exact execStRegs_changesOnly h
  case ldRegs => exact execLdRegs_changesOnly h
  all_goals
    injection h with h
    subst h
  case cls => exact changesOnly_setFb s _
  case sys | nop8 | nopE | nopF => exact ChangesOnly.refl s _
  case jp | jpV0 => exact changesOnly_setPc s _
  case seImm | sneImm | seReg | sneReg | skp | sknp => exact changesOnly_skipIf s _
  case ldImm | addImm | orReg | andReg | xorReg | rnd | ldVxDt => exact changesOnly_setReg s _ _
  case addReg | subReg | shr | subnReg | shl => exact changesOnly_setWithFlag s _ _ _
  case ldI | addI | ldF => exact changesOnly_setI s _
  case ldDtVx => exact changesOnly_setDt s _
  case ldStVx => exact changesOnly_setSt s _

theorem not_mayChange_move8xy0 (s : State) (i : Instr) : ¬ mayChange s i .move8xy0 := by
  cases i <;> simp [mayChange]

/-- No instruction writes MOVE_8XY0. -/
theorem exec_move8xy0 {i : Instr} {s t : State} (h : exec i s = .next t) : t.move8xy0 = s.move8xy0 :=
  exec_changesOnly h .move8xy0 (not_mayChange_move8xy0 s i)

/-- Settles O58: a frame tick and a quit write no parameter, and neither do the fetch and the instruction of a `step()`. -/
theorem stepKeepsTheParameter : Obligations.StepKeepsTheParameter := by
  intro s t h
  obtain ⟨rest, -, rfl⟩ | rfl | ⟨i, r, -, hexec, -, hfetch⟩ := step_runs h
  · simp [State.frameTick]
  · rfl
  · have hr : r.move8xy0 = s.move8xy0 := hfetch .move8xy0 (by simp)
    exact (exec_move8xy0 hexec).trans hr

end Sys2Proof.Machine
end

section
/-! PROOFS. The state at reset (spec/10_state.md R49–R53). -/

namespace Sys2Proof.Machine

/-- Settles O1: each register and each cell is read out of a vector of equal entries. -/
theorem resetZeroesRegistersAndFramebuffer : Obligations.ResetZeroesRegistersAndFramebuffer := by
  have hreg : ∀ r, State.reset.reg r = 0 := fun r => by simp [State.reg, State.reset]
  exact ⟨hreg, rfl, rfl, rfl, pixel_blankFb⟩

/-- Settles O2: the slots are read out of a vector of zeros. -/
theorem resetEntersTheProgramWithAnEmptyStack : Obligations.ResetEntersTheProgramWithAnEmptyStack := by
  have hslot : ∀ j : Fin 16, State.reset.stack[j] = 0 := fun j => by simp [State.reset]
  exact ⟨rfl, rfl, hslot, rfl⟩

theorem defaultFont_length : defaultFont.length = 80 := rfl

theorem unlisted_of_le {a : Nat} (h : 80 ≤ a) : unlisted a = 0 :=
  List.getD_eq_default _ _ (defaultFont_length ▸ h)

/-- No address is listed at reset; one outside the store reads as 0x00 either way. -/
theorem reset_readByte (a : Nat) : State.reset.readByte a = unlisted a := by
  unfold State.readByte
  split
  · rfl
  · next h => exact (unlisted_of_le (by rw [inStore_iff] at h; omega)).symm

/-- Settles O3: the default font is the table of R52, and past its 80 bytes an unlisted address reads as 0x00. -/
theorem resetStoreHoldsTheDefaultFont : Obligations.ResetStoreHoldsTheDefaultFont :=
  ⟨fun a => reset_readByte a, fun a h => (reset_readByte a).trans (unlisted_of_le h)⟩

/-- Settles O20: at reset no cell is listed, SP is −1, and the result is Completed. -/
theorem resetMeetsTheInvariant : Obligations.ResetMeetsTheInvariant :=
  ⟨rfl, by decide, nofun⟩

end Sys2Proof.Machine
end

section
/-! PROOFS. What a step may change of the stack, I, the timers, the store and VF (spec/10_state.md R31, R33, R38–R43): a part
that a step changed stands in the frame of the instruction it ran, and a frame names few instructions. -/

namespace Sys2Proof.Machine

/-- A part that changed is one of those that may. -/
theorem ChangesOnly.may_of_changed {s t : State} {may : Part → Prop} {p : Part} (h : ChangesOnly s t may)
    (hne : ¬ SamePart s t p) : may p := not_imp_comm.mp (h p) hne

/-! ## Which instructions have a part in their frame -/

section
variable {s : State} {i : Instr}

theorem call_of_mayChange_slot {j : Fin 16} (h : mayChange s i (.slot j)) :
    (∃ nnn, i = .call nnn) ∧ j.val = (s.sp + 1).toNat := by
  cases i <;> simp_all [mayChange]

theorem call_or_ret_of_mayChange_sp (h : mayChange s i .sp) : (∃ nnn, i = .call nnn) ∨ i = .ret := by
  cases i <;> simp_all [mayChange]

theorem index_instr_of_mayChange_index (h : mayChange s i .index) :
    (∃ nnn, i = .ldI nnn) ∨ ∃ x, i = .addI x ∨ i = .ldF x := by
  cases i <;> simp_all [mayChange]

theorem ldDtVx_of_mayChange_dt (h : mayChange s i .dt) : ∃ x, i = .ldDtVx x := by
  cases i <;> simp_all [mayChange]

theorem ldStVx_of_mayChange_st (h : mayChange s i .st) : ∃ x, i = .ldStVx x := by
  cases i <;> simp_all [mayChange]

theorem store_instr_of_mayChange_byte {a : Nat} (h : mayChange s i (.byte a)) : ∃ x, i = .ldB x ∨ i = .stRegs x := by
  cases i <;> simp_all [mayChange]

theorem ldVxK_of_mayChange_result (h : mayChange s i .result) : ∃ x, i = .ldVxK x := by
  cases i <;> simp_all [mayChange]

end

/-- VF is the last register: a transfer V0..Vx reaches it only for x = F. -/
theorem eq_VF_of_toNat_le {x : Reg} (h : VF.toNat ≤ x.toNat) : x = VF :=
  BitVec.eq_of_toNat_eq (Nat.le_antisymm (Nat.le_of_lt_succ x.isLt) h)

/-- Settles O25: VF changed, so it stands in the instruction's frame, as the flag or as the destination. -/
theorem onlyFlagInstructionsOrDestinationsWriteVF : Obligations.OnlyFlagInstructionsOrDestinationsWriteVF := by
  intro i s t h hne
  have hmay : mayChange s i (.reg VF) := (exec_changesOnly h).may_of_changed hne
  cases i
  case ldRegs x =>
    obtain hp | ⟨r, hr, hp⟩ := hmay
    · cases hp
    · injection hp with hp
      subst hp
      simp [eq_VF_of_toNat_le hr]
  all_goals simp_all [mayChange]

/-! ## The parts a step changes -/

theorem changesOnly_setSchedule (s : State) (acts : List HostAct) :
    ChangesOnly s (s.setSchedule acts) (fun p => p = .schedule) := by
  intro p hp
  cases p <;> simp_all [SamePart]

/-- The handler's frame speaks of the state only through SP and I. -/
theorem mayChange_congr {r s : State} (hsp : r.sp = s.sp) (hi : r.i = s.i) (i : Instr) (p : Part) :
    mayChange r i p = mayChange s i p := by
  cases i <;> simp only [mayChange, hsp, hi]

/-- The parts that the fetch and the bookkeeping of a step write, before and beside its instruction. -/
def Part.isStepKept : Part → Prop
  | .pc | .errors | .result | .input | .schedule | .draws => False
  | _ => True

/-- A part outside the fetch and the bookkeeping that a step changed was changed by a frame tick or stands in the frame of
the instruction that the step ran. -/
theorem step_changed {s t : State} {p : Part} (h : step s = .next t) (hp : p.isStepKept) (hne : ¬ SamePart s t p) :
    ((∃ rest, s.schedule = .tick :: rest) ∧ (p = .dt ∨ p = .st ∨ p = .presented)) ∨
    ∃ i, s.Runs i ∧ mayChange s i p := by
  obtain ⟨rest, hs, rfl⟩ | rfl | ⟨i, r, hruns, hexec, hsp, hfetch⟩ := step_runs h
  · have hsame : SamePart s (s.setSchedule rest) p := changesOnly_setSchedule s rest p (by rintro rfl; exact hp)
    exact Or.inl ⟨⟨rest, hs⟩, (changesOnly_frameTick _).may_of_changed fun htick => hne (hsame.trans htick)⟩
  · exact absurd (SamePart.refl _ p) hne
  · refine Or.inr ⟨i, hruns, ?_⟩
    have hi : r.i = s.i := hfetch .index (by simp)
    have hsame : SamePart s r p := hfetch p (by rintro (rfl | rfl | rfl | rfl | rfl | rfl) <;> exact hp)
    rw [← mayChange_congr hsp hi]
    exact (exec_changesOnly hexec).may_of_changed fun hrun => hne (hsame.trans hrun)

/-- A part that neither the fetch nor a frame tick writes is changed by an instruction only. -/
theorem step_changed_by_instr {s t : State} {p : Part} (h : step s = .next t) (hp : p.isStepKept)
    (htick : ¬ (p = .dt ∨ p = .st ∨ p = .presented)) (hne : ¬ SamePart s t p) : ∃ i, s.Runs i ∧ mayChange s i p :=
  (step_changed h hp hne).resolve_left fun ht => htick ht.2

/-- Settles O23: the slot above the top is a slot at all only when SP is below 15. -/
theorem onlyCallAndReturnChangeTheStack : Obligations.OnlyCallAndReturnChangeTheStack := by
  intro s t hlo h
  constructor
  · intro j hne
    obtain ⟨i, hruns, hmay⟩ := step_changed_by_instr (p := .slot j) h trivial (by simp) hne
    obtain ⟨⟨nnn, rfl⟩, hj⟩ := call_of_mayChange_slot hmay
    have hlt := j.isLt
    exact ⟨by omega, by omega, nnn, hruns⟩
  · intro hne
    obtain ⟨i, hruns, hmay⟩ := step_changed_by_instr (p := .sp) h trivial (by simp) hne
    obtain ⟨nnn, rfl⟩ | rfl := call_or_ret_of_mayChange_sp hmay
    · exact Or.inl ⟨nnn, hruns⟩
    · exact Or.inr hruns

/-- Settles O24: each part stands in the frames of its named instructions alone, and a frame tick writes the timers. -/
theorem onlyNamedInstructionsWriteIndexTimersAndStore : Obligations.OnlyNamedInstructionsWriteIndexTimersAndStore := by
  intro s t h
  refine ⟨fun hne => ?_, fun hne => ?_, fun hne => ?_, fun a hne => ?_⟩
  · obtain ⟨i, hruns, hmay⟩ := step_changed_by_instr (p := .index) h trivial (by simp) hne
    obtain ⟨nnn, rfl⟩ | ⟨x, rfl | rfl⟩ := index_instr_of_mayChange_index hmay
    · exact Or.inl ⟨nnn, hruns⟩
    · exact Or.inr ⟨x, Or.inl hruns⟩
    · exact Or.inr ⟨x, Or.inr hruns⟩
  · obtain ⟨htick, -⟩ | ⟨i, hruns, hmay⟩ := step_changed (p := .dt) h trivial hne
    · exact Or.inl htick
    · obtain ⟨x, rfl⟩ := ldDtVx_of_mayChange_dt hmay
      exact Or.inr ⟨x, hruns⟩
  · obtain ⟨htick, -⟩ | ⟨i, hruns, hmay⟩ := step_changed (p := .st) h trivial hne
    · exact Or.inl htick
    · obtain ⟨x, rfl⟩ := ldStVx_of_mayChange_st hmay
      exact Or.inr ⟨x, hruns⟩
  · obtain ⟨i, hruns, hmay⟩ := step_changed_by_instr (p := .byte a) h trivial (by simp) hne
    obtain ⟨x, rfl | rfl⟩ := store_instr_of_mayChange_byte hmay
    · exact ⟨x, Or.inl hruns⟩
    · exact ⟨x, Or.inr hruns⟩

end Sys2Proof.Machine
end

section
/-! PROOFS. The invariant: each clause is kept by the handler of every instruction, and the state in which the handler runs
meets the clauses on the store and on SP when the state before the step does (spec/10_state.md R41, R48). -/

namespace Sys2Proof.Machine

section
variable {s t : State}

/-! ## The canonical form of the store -/

theorem State.push_mem (s : State) (w : Word) : (s.push w).2.mem = s.mem := by
  by_cases h : s.sp = 15
  · simp [State.push_full s w h]
  · simp [State.push_room s w h]

theorem State.pop_mem (s : State) : s.pop.2.mem = s.mem := by
  by_cases h : s.sp = -1
  · simp [State.pop_empty s h]
  · simp [State.pop_some s h]

/-- Only Fx33 and Fx55 write the store. -/
theorem exec_mem {i : Instr} (h : exec i s = .next t) (hB : ∀ x, i ≠ .ldB x) (hR : ∀ x, i ≠ .stRegs x) :
    t.mem = s.mem := by
  cases i
  case ldB x => exact absurd rfl (hB x)
  case stRegs x => exact absurd rfl (hR x)
  all_goals
    injection h with h
    subst h
  case ret => rw [← State.pop_mem s]; split <;> rfl
  case call => rw [← State.push_mem s s.pc]; split <;> rfl
  case ldReg => split <;> rfl
  case ldVxK => split <;> rfl
  case seImm | sneImm | seReg | sneReg | skp | sknp => exact State.skipIf_mem s _
  case drw => exact State.drawRows_mem _ _ _ _
  case ldRegs => exact State.loadRegs_mem s _
  all_goals rfl

theorem exec_keeps_wf {i : Instr} (h : exec i s = .next t) (hwf : s.mem.wf = true) : t.mem.wf = true := by
  by_cases hB : ∃ x, i = .ldB x
  · obtain ⟨x, rfl⟩ := hB
    injection h with h
    subst h
    exact State.memWrite_wf _ _ (State.memWrite_wf _ _ (State.memWrite_wf _ _ hwf))
  by_cases hR : ∃ x, i = .stRegs x
  · obtain ⟨x, rfl⟩ := hR
    injection h with h
    subst h
    exact State.storeRegs_wf _ hwf
  rw [exec_mem h (not_exists.mp hB) (not_exists.mp hR)]
  exact hwf

/-! ## The range of SP -/

theorem State.push_sp (s : State) (w : Word) : (s.push w).2.sp = if s.sp = 15 then 15 else s.sp + 1 := by
  by_cases h : s.sp = 15
  · simp [State.push_full s w h, h]
  · simp [State.push_room s w h, h]

theorem State.pop_sp (s : State) : s.pop.2.sp = if s.sp = -1 then -1 else s.sp - 1 := by
  by_cases h : s.sp = -1
  · simp [State.pop_empty s h, h]
  · simp [State.pop_some s h, h]

theorem execCall_sp {nnn : Addr12} (h : execCall nnn s = .next t) : t.sp = if s.sp = 15 then 15 else s.sp + 1 := by
  injection h with h
  subst h
  rw [← State.push_sp s s.pc]
  split <;> rfl

theorem execRet_sp (h : execRet s = .next t) : t.sp = if s.sp = -1 then -1 else s.sp - 1 := by
  injection h with h
  subst h
  rw [← State.pop_sp s]
  split <;> rfl

theorem exec_keeps_sp_range {i : Instr} (h : exec i s = .next t) (hsp : -1 ≤ s.sp ∧ s.sp ≤ 15) :
    -1 ≤ t.sp ∧ t.sp ≤ 15 := by
  by_cases hmay : mayChange s i .sp
  · obtain ⟨nnn, rfl⟩ | rfl := call_or_ret_of_mayChange_sp hmay
    · rw [execCall_sp h]
      split <;> omega
    · rw [execRet_sp h]
      split <;> omega
  · have hsame : t.sp = s.sp := exec_changesOnly h .sp hmay
    rwa [hsame]

/-! ## PC after a Retry -/

/-- Only an Fx0A with no key held makes the result Retry, and it does nothing but that and the rewind (R124, R224). -/
theorem exec_retry {i : Instr} (h : exec i s = .next t) (hs : s.result = .completed) (ht : t.result = .retry) :
    (∃ x, i = .ldVxK x) ∧ t = s.rewind.setResult .retry := by
  have hmay : mayChange s i .result := (exec_changesOnly h).may_of_changed (by simp [SamePart, hs, ht])
  obtain ⟨x, rfl⟩ := ldVxK_of_mayChange_result hmay
  refine ⟨⟨x, rfl⟩, ?_⟩
  injection h with h
  subst h
  split at ht
  · rw [State.setReg_result, hs] at ht
    cases ht
  · rfl

/-! ## The step -/

theorem State.nextWord_congr (hmem : t.mem = s.mem) (hpc : t.pc = s.pc) : t.nextWord = s.nextWord := by
  simp [State.nextWord, State.readByte, hmem, hpc]

/-- A step is a frame tick, changes nothing (a quit), or runs an instruction in the handler's state of `s` with the model's
bookkeeping moved on. -/
theorem step_runs_handler (h : step s = .next t) :
    (∃ rest, t = (s.setSchedule rest).frameTick) ∨ t = s ∨
    ∃ acts n inp, exec (decode s.nextWord) (((s.setSchedule acts).setDraws n).handlerState inp) = .next t := by
  obtain ⟨inp, rest, -, h2⟩ | ⟨-, h2⟩ | ⟨rest, -, h2⟩ | ⟨_, -, h2⟩ := step_cases s <;> rw [h] at h2
  · exact Or.inr (Or.inr ⟨rest, s.draws, inp, h2.symm⟩)
  · exact Or.inr (Or.inr ⟨s.schedule, s.draws + 1, _, h2.symm⟩)
  · injection h2 with h2
    exact Or.inl ⟨rest, h2⟩
  · injection h2 with h2
    exact Or.inr (Or.inl h2)

/-- After a step() that ended in Retry, PC points at the Fx0A it ran: the advance and the rewind cancel. -/
theorem handler_retry_nextWord {i : Instr} {acts : List HostAct} {n : Nat} {inp : StepInput}
    (h : exec i (((s.setSchedule acts).setDraws n).handlerState inp) = .next t) (ht : t.result = .retry) :
    (∃ x, i = .ldVxK x) ∧ t.nextWord = s.nextWord := by
  obtain ⟨hx, rfl⟩ := exec_retry h (by simp) ht
  exact ⟨hx, State.nextWord_congr (by simp) (by simp)⟩

end

/-- Settles O19, clause by clause over the kinds of a step. -/
theorem everyStepKeepsTheInvariant : Obligations.EveryStepKeepsTheInvariant := by
  intro s t hinv h
  obtain ⟨rest, rfl⟩ | rfl | ⟨acts, n, inp, hexec⟩ := step_runs_handler h
  · exact hinv
  · exact hinv
  · obtain ⟨hwf, hsp, -⟩ := hinv
    refine ⟨exec_keeps_wf hexec (by simpa using hwf), exec_keeps_sp_range hexec (by simpa using hsp), fun ht => ?_⟩
    obtain ⟨hx, hw⟩ := handler_retry_nextWord hexec ht
    rwa [hw]

end Sys2Proof.Machine
end

section
/-! PROOFS. The memory (spec/20_memory.md R61, R62, R68, R73): the store that a launch fills, one read and one write, and the
fetch of bytes that Fx55 stored. -/

namespace Sys2Proof.Machine

/-! ## What a launch places -/

section
variable (font : Vector Byte 80) (fill : Nat → Byte) (image : List Byte)

theorem launchByte_font (a : Fin 80) : launchByte font fill image a = font[a] := by
  simp [launchByte, Config.fontSize]

theorem launchByte_between {a : Nat} (hfont : 80 ≤ a) (hload : a < 0x200) : launchByte font fill image a = fill a := by
  simp [launchByte, Config.fontSize, Config.loadAddress, Nat.not_lt.mpr hfont, hload]

/-- From the load address on, the image is followed by the fill. -/
theorem launchByte_loaded (k : Nat) :
    launchByte font fill image (0x200 + k) = image.getD k (fill (0x200 + k)) := by
  have hfont : ¬ 0x200 + k < Config.fontSize := by simp only [Config.fontSize]; omega
  simp [launchByte, hfont, Config.loadAddress]

theorem launchByte_image {k : Nat} (h : k < image.length) : launchByte font fill image (0x200 + k) = image[k] := by
  rw [launchByte_loaded, List.getD_eq_getElem _ _ h]

theorem launchByte_after_image {a : Nat} (h : 0x200 + image.length ≤ a) : launchByte font fill image a = fill a := by
  obtain ⟨k, rfl⟩ : ∃ k, a = 0x200 + k := Nat.exists_eq_add_of_le (by omega)
  rw [launchByte_loaded, List.getD_eq_default _ _ (by omega)]

theorem read_launched {a : Nat} (h : a ≤ 0xFFF) :
    (Memory.ofFn (launchByte font fill image)).read a = launchByte font fill image a :=
  Memory.read_ofFn _ (Nat.lt_succ_of_le h)

end

/-- Settles O4: the launched store reads as `launchByte` at every address of the store, and an image of at most 0xE00 bytes
ends inside it. -/
theorem launchPlacesFontImageAndFill : Obligations.LaunchPlacesFontImageAndFill := by
  intro font fill move image acts
  refine ⟨fun hfits => ⟨Memory.ofFn (launchByte font fill image), if_pos hfits, Memory.wf_ofFn _, ?_, ?_, ?_, ?_⟩,
    fun hlong => if_neg (Nat.not_le.mpr hlong)⟩
  · intro a
    rw [read_launched _ _ _ (by omega), launchByte_font]
  · intro a hfont hload
    rw [read_launched _ _ _ (by omega), launchByte_between _ _ _ hfont hload]
  · intro k hk
    rw [read_launched _ _ _ (by omega), launchByte_image _ _ _ hk]
  · intro a hend hstore
    rw [read_launched _ _ _ hstore, launchByte_after_image _ _ _ hend]

/-! ## One read and one write -/

section
variable (s : State) {a : Nat}

theorem not_inStore (h : 0xFFF < a) : ¬ inStore a := by
  rw [inStore_iff]
  omega

theorem State.memRead_inside (h : a ≤ 0xFFF) : s.memRead a = (s.mem.read a, s) := by
  simp [State.memRead, State.readByte, (inStore_iff a).mpr h]

theorem State.memRead_outside (h : 0xFFF < a) : s.memRead a = (0x00, s.report (.addressing .read a)) := by
  simp [State.memRead, State.readByte, not_inStore h]

theorem State.memWrite_inside (x : Byte) (h : a ≤ 0xFFF) : s.memWrite a x = s.setMem (s.mem.write a x) :=
  if_pos ((inStore_iff a).mpr h)

theorem State.memWrite_outside (x : Byte) (h : 0xFFF < a) : s.memWrite a x = s.report (.addressing .write a) :=
  if_neg (not_inStore h)

/-- Inside the store a write reports nothing, so its frame is the one byte. -/
theorem changesOnly_memWrite_inside (x : Byte) (h : a ≤ 0xFFF) :
    ChangesOnly s (s.memWrite a x) (fun p => p = .byte a) := by
  intro p hp
  by_cases herr : p = .errors
  · subst herr
    show (s.memWrite a x).errors = s.errors
    rw [State.memWrite_inside s x h, State.setMem_errors]
  · exact changesOnly_memWrite s a x p (not_or.mpr ⟨herr, hp⟩)

end

/-- Settles O5: the address lies inside the store or outside it. -/
theorem storeReadsBackWhatWasWritten : Obligations.StoreReadsBackWhatWasWritten := by
  intro s a x
  refine ⟨fun hin => ⟨s.memRead_inside hin, ?_, changesOnly_memWrite_inside s x hin⟩,
    fun hout => ⟨s.memRead_outside hout, s.memWrite_outside x hout⟩⟩
  rw [State.memWrite_readByte, if_pos ⟨rfl, (inStore_iff a).mpr hin⟩]

/-! ## The fetch of stored registers -/

/-- Settles O6: the two bytes of the fetch are the reads at I + k and I + k + 1 after the registers were stored there. -/
theorem storedRegistersAreFetchedAsAnInstruction : Obligations.StoredRegistersAreFetchedAsAnInstruction := by
  intro s x k hk hin
  refine ⟨s.storeRegs (x.toNat + 1), rfl, ?_⟩
  have hpc : (BitVec.ofNat 16 (s.i.toNat + k)).toNat = s.i.toNat + k :=
    Nat.mod_eq_of_lt (by omega)
  have hhi : (s.storeRegs (x.toNat + 1)).readByte (s.i.toNat + k) = s.reg (regOfNat k) :=
    s.storeRegs_readByte (by omega) (by omega)
  have hlo : (s.storeRegs (x.toNat + 1)).readByte (s.i.toNat + (k + 1)) = s.reg (regOfNat (k + 1)) :=
    s.storeRegs_readByte (by omega) hin
  calc ((s.storeRegs (x.toNat + 1)).setPc (BitVec.ofNat 16 (s.i.toNat + k))).fetch.1
    _ = wordOfBytes ((s.storeRegs (x.toNat + 1)).readByte (s.i.toNat + k))
          ((s.storeRegs (x.toNat + 1)).readByte (s.i.toNat + (k + 1))) := by
      rw [State.fetch_val, State.setPc_pc, hpc, State.setPc_readByte, State.setPc_readByte, Nat.add_assoc]
    _ = wordOfBytes (s.reg (regOfNat k)) (s.reg (regOfNat (k + 1))) := by rw [hhi, hlo]

end Sys2Proof.Machine
end

section
/-! PROOFS. The encoding (spec/30_encoding.md R90–R103): decode and encode undo each other, the decoder follows the opcode
table, and the no-op space leaves the state. In the four families with sub-opcodes a word is told apart by whether its
sub-opcode is one of the taken ones (Sys2Proof/WellFormed.lean). -/

namespace Sys2Proof.Machine

/-! ## Well-formedness: the sub-opcodes left to a no-op term (R102) -/

theorem wf_sys {nnn : Addr12} : (Instr.sys nnn).wf = true ↔ nnn ∉ sysTaken := by
  simp [Instr.wf]

theorem wf_nop8 {x y : Reg} {n : Nibble} : (Instr.nop8 x y n).wf = true ↔ n ∉ sub8Taken := by
  simp [Instr.wf]

theorem wf_nopE {x : Reg} {kk : Byte} : (Instr.nopE x kk).wf = true ↔ kk ∉ subETaken := by
  simp [Instr.wf]

theorem wf_nopF {x : Reg} {kk : Byte} : (Instr.nopF x kk).wf = true ↔ kk ∉ subFTaken := by
  simp [Instr.wf]

/-! ## The four families with sub-opcodes (R96–R99) -/

theorem decode0_of_not_taken {nnn : Addr12} (h : nnn ∉ sysTaken) : decode0 nnn = .sys nnn := by
  simp_all [sysTaken, decode0]

theorem decode8_of_not_taken (x y : Reg) {n : Nibble} (h : n ∉ sub8Taken) : decode8 x y n = .nop8 x y n := by
  simp only [sub8Taken, List.mem_cons, List.not_mem_nil, or_false, not_or, ← BitVec.toNat_inj, BitVec.toNat_ofNat] at h
  simp [decode8, h]

theorem decodeE_of_not_taken (x : Reg) {kk : Byte} (h : kk ∉ subETaken) : decodeE x kk = .nopE x kk := by
  simp_all [subETaken, decodeE]

theorem decodeF_of_not_taken (x : Reg) {kk : Byte} (h : kk ∉ subFTaken) : decodeF x kk = .nopF x kk := by
  simp_all [subFTaken, decodeF]

theorem wf_and_encode_decode0 (nnn : Addr12) : (decode0 nnn).wf = true ∧ encode (decode0 nnn) = encNNN 0x0 nnn := by
  by_cases h : nnn ∈ sysTaken
  · simp only [sysTaken, List.mem_cons, List.not_mem_nil, or_false] at h
    obtain rfl | rfl := h <;> exact ⟨rfl, rfl⟩
  · rw [decode0_of_not_taken h]
    exact ⟨wf_sys.mpr h, rfl⟩

theorem wf_and_encode_decode8 (x y : Reg) (n : Nibble) :
    (decode8 x y n).wf = true ∧ encode (decode8 x y n) = encXYN 0x8 x y n := by
  by_cases h : n ∈ sub8Taken
  · simp only [sub8Taken, List.mem_cons, List.not_mem_nil, or_false] at h
    obtain rfl | rfl | rfl | rfl | rfl | rfl | rfl | rfl | rfl := h <;> exact ⟨rfl, rfl⟩
  · rw [decode8_of_not_taken x y h]
    exact ⟨wf_nop8.mpr h, rfl⟩

theorem wf_and_encode_decodeE (x : Reg) (kk : Byte) :
    (decodeE x kk).wf = true ∧ encode (decodeE x kk) = encXKK 0xE x kk := by
  by_cases h : kk ∈ subETaken
  · simp only [subETaken, List.mem_cons, List.not_mem_nil, or_false] at h
    obtain rfl | rfl := h <;> exact ⟨rfl, rfl⟩
  · rw [decodeE_of_not_taken x h]
    exact ⟨wf_nopE.mpr h, rfl⟩

theorem wf_and_encode_decodeF (x : Reg) (kk : Byte) :
    (decodeF x kk).wf = true ∧ encode (decodeF x kk) = encXKK 0xF x kk := by
  by_cases h : kk ∈ subFTaken
  · simp only [subFTaken, List.mem_cons, List.not_mem_nil, or_false] at h
    obtain rfl | rfl | rfl | rfl | rfl | rfl | rfl | rfl | rfl := h <;> exact ⟨rfl, rfl⟩
  · rw [decodeF_of_not_taken x h]
    exact ⟨wf_nopF.mpr h, rfl⟩

/-! ## Decode of encode -/

theorem decode_encNNN_0 (nnn : Addr12) : decode (encNNN 0x0#4 nnn) = decode0 nnn := by
  rw [decode_family_0 (famOf_encNNN _ _), nnnOf_encNNN]

theorem decode_encXYN_8 (x y : Reg) (n : Nibble) : decode (encXYN 0x8#4 x y n) = decode8 x y n := by
  rw [decode_family_8 (famOf_encXYN _ _ _ _), xOf_encXYN, yOf_encXYN, nOf_encXYN]

theorem decode_encXKK_E (x : Reg) (kk : Byte) : decode (encXKK 0xE#4 x kk) = decodeE x kk := by
  rw [decode_family_E (famOf_encXKK _ _ _), xOf_encXKK, kkOf_encXKK]

theorem decode_encXKK_F (x : Reg) (kk : Byte) : decode (encXKK 0xF#4 x kk) = decodeF x kk := by
  rw [decode_family_F (famOf_encXKK _ _ _), xOf_encXKK, kkOf_encXKK]

/-- Settles O7, family by family: a family with sub-opcodes hands the word's fields to its own decoder, and in every other
family the fields are the operands. -/
theorem decodeOfEncodeIsTheInstruction : Obligations.DecodeOfEncodeIsTheInstruction := by
  intro i hwf
  cases i
  case sys => exact (decode_encNNN_0 _).trans (decode0_of_not_taken (wf_sys.mp hwf))
  case nop8 => exact (decode_encXYN_8 _ _ _).trans (decode8_of_not_taken _ _ (wf_nop8.mp hwf))
  case nopE => exact (decode_encXKK_E _ _).trans (decodeE_of_not_taken _ (wf_nopE.mp hwf))
  case nopF => exact (decode_encXKK_F _ _).trans (decodeF_of_not_taken _ (wf_nopF.mp hwf))
  case cls | ret => exact decode_encNNN_0 _
  case ldReg | orReg | andReg | xorReg | addReg | subReg | shr | subnReg | shl => exact decode_encXYN_8 _ _ _
  case skp | sknp => exact decode_encXKK_E _ _
  case ldVxDt | ldVxK | ldDtVx | ldStVx | addI | ldF | ldB | stRegs | ldRegs => exact decode_encXKK_F _ _
  all_goals simp [encode, decode]

/-! ## Encode of decode -/

theorem nibble_cases (f : Nibble) :
    f = 0x0#4 ∨ f = 0x1#4 ∨ f = 0x2#4 ∨ f = 0x3#4 ∨ f = 0x4#4 ∨ f = 0x5#4 ∨ f = 0x6#4 ∨ f = 0x7#4 ∨
    f = 0x8#4 ∨ f = 0x9#4 ∨ f = 0xA#4 ∨ f = 0xB#4 ∨ f = 0xC#4 ∨ f = 0xD#4 ∨ f = 0xE#4 ∨ f = 0xF#4 := by
  revert f
  decide

section
variable {w : Word} {f : Nibble}

theorem encNNN_of_family (h : famOf w = f) : encNNN f (nnnOf w) = w := h ▸ encNNN_fields w

theorem encXKK_of_family (h : famOf w = f) : encXKK f (xOf w) (kkOf w) = w := h ▸ encXKK_fields w

theorem encXYN_of_family (h : famOf w = f) : encXYN f (xOf w) (yOf w) (nOf w) = w := h ▸ encXYN_fields w

end

/-- Settles O8, over the 16 families. -/
theorem everyWordIsOneWellFormedInstruction : Obligations.EveryWordIsOneWellFormedInstruction := by
  intro w
  obtain h | h | h | h | h | h | h | h | h | h | h | h | h | h | h | h := nibble_cases (famOf w)
  · rw [decode_family_0 h]; exact (wf_and_encode_decode0 _).imp_right (·.trans (encNNN_of_family h))
  · rw [decode_family_1 h]; exact ⟨rfl, encNNN_of_family h⟩
  · rw [decode_family_2 h]; exact ⟨rfl, encNNN_of_family h⟩
  · rw [decode_family_3 h]; exact ⟨rfl, encXKK_of_family h⟩
  · rw [decode_family_4 h]; exact ⟨rfl, encXKK_of_family h⟩
  · rw [decode_family_5 h]; exact ⟨rfl, encXYN_of_family h⟩
  · rw [decode_family_6 h]; exact ⟨rfl, encXKK_of_family h⟩
  · rw [decode_family_7 h]; exact ⟨rfl, encXKK_of_family h⟩
  · rw [decode_family_8 h]; exact (wf_and_encode_decode8 _ _ _).imp_right (·.trans (encXYN_of_family h))
  · rw [decode_family_9 h]; exact ⟨rfl, encXYN_of_family h⟩
  · rw [decode_family_A h]; exact ⟨rfl, encNNN_of_family h⟩
  · rw [decode_family_B h]; exact ⟨rfl, encNNN_of_family h⟩
  · rw [decode_family_C h]; exact ⟨rfl, encXKK_of_family h⟩
  · rw [decode_family_D h]; exact ⟨rfl, encXYN_of_family h⟩
  · rw [decode_family_E h]; exact (wf_and_encode_decodeE _ _).imp_right (·.trans (encXKK_of_family h))
  · rw [decode_family_F h]; exact (wf_and_encode_decodeF _ _).imp_right (·.trans (encXKK_of_family h))

/-! ## The no-op space -/

/-- Settles O12: each word of the space decodes to a term whose meaning is the state itself. -/
theorem noOpWordsChangeNothing : Obligations.NoOpWordsChangeNothing := by
  intro w s h
  obtain ⟨hf, hcls, hret⟩ | ⟨hf, hn⟩ | ⟨hf, hn, hmove⟩ | ⟨hf, hskp, hsknp⟩ | ⟨hf, hkk⟩ := h
  · have hfree : nnnOf w ∉ sysTaken := by simp [sysTaken, hcls, hret]
    rw [decode_family_0 hf, decode0_of_not_taken hfree]
    rfl
  · have hfree : ∀ n ∈ [0x8#4, 0x9#4, 0xA#4, 0xB#4, 0xC#4, 0xD#4, 0xF#4], n ∉ sub8Taken := by decide
    rw [decode_family_8 hf, decode8_of_not_taken _ _ (hfree _ hn)]
    rfl
  · rw [decode_family_8 hf, hn]
    show execLdReg (xOf w) (yOf w) s = .next s
    simp [execLdReg, hmove]
  · have hfree : kkOf w ∉ subETaken := by simp [subETaken, hskp, hsknp]
    rw [decode_family_E hf, decodeE_of_not_taken _ hfree]
    rfl
  · rw [decode_family_F hf, decodeF_of_not_taken _ hkk]
    rfl

/-! ## The words of the spec, and the fetched word -/

/-- Settles O10: closed facts, one for each word. -/
theorem specWordsDecodeToTheirInstruction : Obligations.SpecWordsDecodeToTheirInstruction := by
  unfold Obligations.SpecWordsDecodeToTheirInstruction
  decide

/-- R91's form of the word of two bytes. -/
theorem wordOfBytes_eq_shift_or (hi lo : Byte) :
    wordOfBytes hi lo = (hi.setWidth 16 <<< 8) ||| lo.setWidth 16 := by
  have hhi : hi.shiftLeftZeroExtend 8 = hi.setWidth 16 <<< 8 := BitVec.shiftLeftZeroExtend_eq
  rw [← hhi]
  rfl

/-- Settles O11. -/
theorem fetchAssemblesTheWordHighByteFirst : Obligations.FetchAssemblesTheWordHighByteFirst := by
  intro s
  rw [State.fetch_val, wordOfBytes_eq_shift_or, State.memRead_val, State.memRead_val]

/-! ## The rows of the opcode table -/

open Laws.EncodesInRow in
/-- Every instruction's word has the fixed bits of the instruction's row. -/
theorem encodesInRow : ∀ i : Instr, Statement i
  | .cls => cls
  | .ret => ret
  | .sys nnn => sys nnn
  | .jp nnn => jp nnn
  | .call nnn => call nnn
  | .seImm x kk => seImm x kk
  | .sneImm x kk => sneImm x kk
  | .seReg x y n => seReg x y n
  | .ldImm x kk => ldImm x kk
  | .addImm x kk => addImm x kk
  | .ldReg x y => ldReg x y
  | .orReg x y => orReg x y
  | .andReg x y => andReg x y
  | .xorReg x y => xorReg x y
  | .addReg x y => addReg x y
  | .subReg x y => subReg x y
  | .shr x y => shr x y
  | .subnReg x y => subnReg x y
  | .shl x y => shl x y
  | .nop8 x y n => nop8 x y n
  | .sneReg x y n => sneReg x y n
  | .ldI nnn => ldI nnn
  | .jpV0 nnn => jpV0 nnn
  | .rnd x kk => rnd x kk
  | .drw x y n => drw x y n
  | .skp x => skp x
  | .sknp x => sknp x
  | .nopE x kk => nopE x kk
  | .ldVxDt x => ldVxDt x
  | .ldVxK x => ldVxK x
  | .ldDtVx x => ldDtVx x
  | .ldStVx x => ldStVx x
  | .addI x => addI x
  | .ldF x => ldF x
  | .ldB x => ldB x
  | .stRegs x => stRegs x
  | .ldRegs x => ldRegs x
  | .nopF x kk => nopF x kk

theorem rowOf_mem (i : Instr) : rowOf i ∈ priorityRows ∨ rowOf i ∈ fallbackRows := by
  cases i
  case sys | nop8 | nopE | nopF =>
    right
    simp only [rowOf]
    decide
  all_goals
    left
    simp only [rowOf]
    decide

section
variable {r q : OpRow} {w : Word}

theorem OpRow.selects_iff : r.selects w = true ↔ w &&& r.mask = r.value := beq_iff_eq

/-- Two rows that a word matches agree on the bits that both fix. -/
theorem rows_agree (hr : r.selects w = true) (hq : q.selects w = true) : r.value &&& q.mask = q.value &&& r.mask := by
  rw [← OpRow.selects_iff.mp hr, ← OpRow.selects_iff.mp hq]
  ac_rfl

/-- A word that matches a row has every field that the row fixes whole. -/
theorem extractLsb'_of_selects {start len : Nat} (h : r.selects w = true)
    (hmask : r.mask.extractLsb' start len = BitVec.allOnes len) :
    w.extractLsb' start len = r.value.extractLsb' start len := by
  rw [← OpRow.selects_iff.mp h, BitVec.extractLsb'_and, hmask, BitVec.and_allOnes]

end

/-! ## The rows with priority 0: each fixes the family, and in a family with sub-opcodes a taken one -/

/-- No two rows with priority 0 agree on the bits that both fix. -/
theorem priorityRows_disjoint :
    ∀ r ∈ priorityRows, ∀ q ∈ priorityRows, r.value &&& q.mask = q.value &&& r.mask → r = q := by
  decide

theorem famOf_mask_of_priorityRow : ∀ r ∈ priorityRows, famOf r.mask = BitVec.allOnes 4 := by
  decide

theorem sysTaken_of_priorityRow : ∀ r ∈ priorityRows, famOf r.value = 0x0#4 →
    nnnOf r.mask = BitVec.allOnes 12 ∧ nnnOf r.value ∈ sysTaken := by
  decide

theorem sub8Taken_of_priorityRow : ∀ r ∈ priorityRows, famOf r.value = 0x8#4 →
    nOf r.mask = BitVec.allOnes 4 ∧ nOf r.value ∈ sub8Taken := by
  decide

theorem subETaken_of_priorityRow : ∀ r ∈ priorityRows, famOf r.value = 0xE#4 →
    kkOf r.mask = BitVec.allOnes 8 ∧ kkOf r.value ∈ subETaken := by
  decide

theorem subFTaken_of_priorityRow : ∀ r ∈ priorityRows, famOf r.value = 0xF#4 →
    kkOf r.mask = BitVec.allOnes 8 ∧ kkOf r.value ∈ subFTaken := by
  decide

section
variable {r : OpRow} {w : Word} (hr : r ∈ priorityRows) (hsel : r.selects w = true)
include hr hsel

theorem famOf_value_of_selects {f : Nibble} (hf : famOf w = f) : famOf r.value = f :=
  (extractLsb'_of_selects hsel (famOf_mask_of_priorityRow r hr)).symm.trans hf

theorem nnnOf_taken_of_selects (hf : famOf w = 0x0#4) : nnnOf w ∈ sysTaken := by
  obtain ⟨hmask, htaken⟩ := sysTaken_of_priorityRow r hr (famOf_value_of_selects hr hsel hf)
  rwa [nnnOf, extractLsb'_of_selects hsel hmask]

theorem nOf_taken_of_selects (hf : famOf w = 0x8#4) : nOf w ∈ sub8Taken := by
  obtain ⟨hmask, htaken⟩ := sub8Taken_of_priorityRow r hr (famOf_value_of_selects hr hsel hf)
  rwa [nOf, extractLsb'_of_selects hsel hmask]

theorem kkOf_taken_of_selects_E (hf : famOf w = 0xE#4) : kkOf w ∈ subETaken := by
  obtain ⟨hmask, htaken⟩ := subETaken_of_priorityRow r hr (famOf_value_of_selects hr hsel hf)
  rwa [kkOf, extractLsb'_of_selects hsel hmask]

theorem kkOf_taken_of_selects_F (hf : famOf w = 0xF#4) : kkOf w ∈ subFTaken := by
  obtain ⟨hmask, htaken⟩ := subFTaken_of_priorityRow r hr (famOf_value_of_selects hr hsel hf)
  rwa [kkOf, extractLsb'_of_selects hsel hmask]

end

/-- A word of a row with priority 1 carries a sub-opcode that no row with priority 0 has. -/
theorem not_selects_of_fallback {i : Instr} {r : OpRow} (hwf : i.wf = true) (hi : rowOf i ∈ fallbackRows)
    (hr : r ∈ priorityRows) : r.selects (encode i) = false := by
  rw [Bool.eq_false_iff]
  intro hsel
  cases i
  case sys nnn =>
    have htaken := nnnOf_taken_of_selects hr hsel (famOf_encNNN _ _)
    exact wf_sys.mp hwf (nnnOf_encNNN _ nnn ▸ htaken)
  case nop8 x y n =>
    have htaken := nOf_taken_of_selects hr hsel (famOf_encXYN _ _ _ _)
    exact wf_nop8.mp hwf (nOf_encXYN _ x y n ▸ htaken)
  case nopE x kk =>
    have htaken := kkOf_taken_of_selects_E hr hsel (famOf_encXKK _ _ _)
    exact wf_nopE.mp hwf (kkOf_encXKK _ x kk ▸ htaken)
  case nopF x kk =>
    have htaken := kkOf_taken_of_selects_F hr hsel (famOf_encXKK _ _ _)
    exact wf_nopF.mp hwf (kkOf_encXKK _ x kk ▸ htaken)
  all_goals simp [rowOf, fallbackRows] at hi

/-- Settles O9: the word is the encoding of the instruction it decodes to, a row with priority 1 has a sub-opcode of its own,
and the rows with priority 0 are disjoint. -/
theorem decodeSelectsTheOpcodeTableRow : Obligations.DecodeSelectsTheOpcodeTableRow := by
  intro w
  obtain ⟨hwf, henc⟩ := everyWordIsOneWellFormedInstruction w
  have hsel : (rowOf (decode w)).selects w = true := by
    have h : (rowOf (decode w)).selects (encode (decode w)) = true := encodesInRow (decode w)
    rwa [henc] at h
  refine ⟨hsel, rowOf_mem _, fun hrow r hr => ?_, fun hrow r hr h => ?_⟩
  · rw [← henc]
    exact not_selects_of_fallback hwf hrow hr
  · exact priorityRows_disjoint r hr _ hrow (rows_agree h hsel)

end Sys2Proof.Machine
end

section
/-! PROOFS. Fetch and dispatch (spec/40_fetch_dispatch.md R121–R130): the step inside the store and at its edge, completion,
the errors as outputs that nothing reads, and the inputs that only their instructions read. -/

namespace Sys2Proof.Machine

/-- Settles O21: every instruction answers a next state, and its frame is put together from its operations' frames. -/
theorem everyInstructionChangesOnlyItsParts : Obligations.EveryInstructionChangesOnlyItsParts := by
  intro i s
  obtain ⟨t, h⟩ := exec_next i s
  exact ⟨t, h, exec_changesOnly h⟩

/-- Settles O15 over the four kinds of a step: two run an instruction, a frame tick and a quit name their next state. -/
theorem everyStepEndsInANextState : Obligations.EveryStepEndsInANextState := by
  intro s
  obtain ⟨inp, rest, -, h⟩ | ⟨-, h⟩ | ⟨rest, -, h⟩ | ⟨rest, -, h⟩ := step_cases s
  · exact h ▸ exec_next _ _
  · exact h ▸ exec_next _ _
  · exact ⟨_, h⟩
  · exact ⟨_, h⟩

/-! ## The step inside the store, and at its edge (R121, R122) -/

/-- Settles O13: inside the store the handler's state is the state before with PC advanced and the step begun. -/
theorem stepRunsTheDecodedInstruction : Obligations.StepRunsTheDecodedInstruction := by
  rintro s i hpc rfl
  constructor
  · intro inp rest hs
    rw [step_cpu hs, State.handlerState_inStore (s := s.setSchedule rest) inp hpc]
    rfl
  · intro hs
    rw [step_free hs, State.handlerState_inStore (s := s.setDraws (s.draws + 1)) _ hpc]
    rfl

section
variable {s : State}

theorem State.readByte_outside {a : Nat} (h : 0xFFF < a) : s.readByte a = 0x00 := if_neg (not_inStore h)

/-- A fetch above the store reports both bytes, high byte first. -/
theorem State.fetch_above (h : 0xFFF < s.pc.toNat) :
    s.fetch.2 =
      s.setErrors (s.errors ++ [.addressing .read s.pc.toNat, .addressing .read (s.pc.toNat + 1)]) := by
  rw [State.fetch_state, State.memRead_outside s h, State.memRead_outside _ (Nat.lt_succ_of_lt h)]
  simp only [State.report, State.setErrors_errors, List.append_assoc]
  rfl

/-- A fetch at 0xFFF reports the low byte. -/
theorem State.fetch_edge (h : s.pc.toNat = 0xFFF) : s.fetch.2 = s.report (.addressing .read 0x1000) := by
  rw [State.fetch_state, h, State.memRead_inside s (le_refl _), State.memRead_outside s (by decide)]

theorem decode_zero : decode 0x0000#16 = .sys 0 := by decide

theorem State.nextWord_above (h : 0xFFF < s.pc.toNat) : s.nextWord = 0x0000#16 := by
  rw [State.nextWord, State.readByte_outside h, State.readByte_outside (Nat.lt_succ_of_lt h)]
  rfl

theorem State.nextWord_edge (h : s.pc.toNat = 0xFFF) : s.nextWord = wordOfBytes (s.readByte 0xFFF) 0x00 := by
  rw [State.nextWord, h, State.readByte_outside (a := 0xFFF + 1) (by decide)]

/-- Above the store the fetch leaves its two records. -/
theorem State.handlerState_above (inp : StepInput) (h : 0xFFF < s.pc.toNat) :
    s.handlerState inp = { s with
      pc := s.pc + 2, input := inp, result := .completed,
      errors := s.errors ++ [.addressing .read s.pc.toNat, .addressing .read (s.pc.toNat + 1)] } := by
  rw [State.handlerState, State.fetch_above (s := s.beginStep inp) h]
  rfl

/-- At 0xFFF the fetch leaves one record. -/
theorem State.handlerState_edge (inp : StepInput) (h : s.pc.toNat = 0xFFF) :
    s.handlerState inp = { s with
      pc := 0x1001, input := inp, result := .completed, errors := s.errors ++ [.addressing .read 0x1000] } := by
  have hadvance : 0x1001 = s.pc + 2 := by rw [BitVec.eq_of_toNat_eq (y := 0xFFF#16) h]; rfl
  rw [State.handlerState, State.fetch_edge (s := s.beginStep inp) h, hadvance]
  rfl

/-- A `step()`, scheduled or with free inputs, runs the instruction of the next word in the handler's state of `s` with its
schedule and draws moved on. -/
theorem step_of_inputs {inp : StepInput} {rest : List HostAct} {n : Nat}
    (h : (s.schedule = .cpu inp :: rest ∧ n = s.draws) ∨
      (s.schedule = [] ∧ inp = Config.freeInput s.draws ∧ rest = [] ∧ n = s.draws + 1)) :
    step s = exec (decode s.nextWord) (((s.setSchedule rest).setDraws n).handlerState inp) := by
  obtain ⟨hs, rfl⟩ | ⟨hs, rfl, rfl, rfl⟩ := h
  · exact step_cpu hs
  · rw [step_free hs, ← hs]
    rfl

end

/-- Settles O14: above the store the word is 0x0000, a legacy system call; at 0xFFF the low byte is 0x00. -/
theorem fetchOutsideTheStoreReportsAndGoesOn : Obligations.FetchOutsideTheStoreReportsAndGoesOn := by
  intro s inp rest n hin
  rw [step_of_inputs hin]
  constructor
  · intro hpc
    rw [State.nextWord_above hpc, decode_zero, State.handlerState_above (s := (s.setSchedule rest).setDraws n) inp hpc]
    rfl
  · intro hpc
    rw [State.nextWord_edge hpc, State.handlerState_edge (s := (s.setSchedule rest).setDraws n) inp hpc]
    rfl

/-! ## What an instruction does, said through the operations it is made of -/

section
variable {s : State} {nnn : Addr12}

theorem execCall_full (h : s.sp = 15) : execCall nnn s = .next (s.report (.stackOverflow s.pc)) := by
  simp [execCall, State.push_full s s.pc h]

theorem execCall_room (h : s.sp ≠ 15) :
    execCall nnn s = .next (((s.setSp (s.sp + 1)).setSlot (s.sp + 1) s.pc).setPc (wordOfAddr nnn)) := by
  simp [execCall, State.push_room s s.pc h]

theorem execRet_empty (h : s.sp = -1) : execRet s = .next (s.report (.stackUnderflow s.pc)) := by
  simp [execRet, State.pop_empty s h]

theorem execRet_some (h : s.sp ≠ -1) : execRet s = .next ((s.setSp (s.sp - 1)).setPc (s.slot s.sp)) := by
  simp [execRet, State.pop_some s h]

theorem execLdVxK_held {x : Reg} {k : Key} (h : heldKey s.input = some k) :
    execLdVxK x s = .next (s.setReg x (k.setWidth 8)) := by
  simp [execLdVxK, h]

theorem execLdVxK_none {x : Reg} (h : heldKey s.input = none) : execLdVxK x s = .next (s.rewind.setResult .retry) := by
  simp [execLdVxK, h]

end

/-! ## Errors are outputs (R128, R242) -/

theorem State.skipIf_setErrors (s : State) (c : Bool) (es : List ErrorRecord) :
    (s.setErrors es).skipIf c = (s.skipIf c).setErrors es := by
  cases c <;> rfl

/-- The errors that an instruction reports. -/
def newErrors (s : State) : Instr → List ErrorRecord
  | .ret => if s.sp = -1 then [.stackUnderflow s.pc] else []
  | .call _ => if s.sp = 15 then [.stackOverflow s.pc] else []
  | .drw _ _ n => accessErrors .read s n.toNat
  | .ldB _ => accessErrors .write s 3
  | .stRegs x => accessErrors .write s (x.toNat + 1)
  | .ldRegs x => accessErrors .read s (x.toNat + 1)
  | _ => []

section
variable {s t : State} (es : List ErrorRecord)

theorem execRet_setErrors (h : execRet s = .next t) :
    execRet (s.setErrors es) = .next (t.setErrors (es ++ newErrors s .ret)) := by
  by_cases hsp : s.sp = -1
  · cases (execRet_empty hsp).symm.trans h
    rw [execRet_empty (s := s.setErrors es) hsp, newErrors, if_pos hsp]
    rfl
  · cases (execRet_some hsp).symm.trans h
    rw [execRet_some (s := s.setErrors es) hsp, newErrors, if_neg hsp, List.append_nil]
    rfl

theorem execCall_setErrors {nnn : Addr12} (h : execCall nnn s = .next t) :
    execCall nnn (s.setErrors es) = .next (t.setErrors (es ++ newErrors s (.call nnn))) := by
  by_cases hsp : s.sp = 15
  · cases (execCall_full hsp).symm.trans h
    rw [execCall_full (s := s.setErrors es) hsp, newErrors, if_pos hsp]
    rfl
  · cases (execCall_room hsp).symm.trans h
    rw [execCall_room (s := s.setErrors es) hsp, newErrors, if_neg hsp, List.append_nil]
    rfl

theorem execLdB_setErrors {x : Reg} (h : execLdB x s = .next t) :
    execLdB x (s.setErrors es) = .next (t.setErrors (es ++ newErrors s (.ldB x))) := by
  have hthree : es ++ accessErrors .write s 3 =
      es ++ accessError .write (s.ea 0) ++ accessError .write (s.ea 1) ++ accessError .write (s.ea 2) := by
    simp [accessErrors_succ, accessErrors_zero, accessError]
  injection h with h
  subst h
  rw [newErrors, hthree]
  simp only [← State.memWrite_setErrors]
  rfl

/-- An instruction adds the same records to any list of earlier errors, and does the same beside. -/
theorem exec_setErrors {i : Instr} (h : exec i s = .next t) :
    exec i (s.setErrors es) = .next (t.setErrors (es ++ newErrors s i)) := by
  cases i
  case ret => exact execRet_setErrors es h
  case call => exact execCall_setErrors es h
  case ldB => exact execLdB_setErrors es h
  all_goals
    injection h with h
    subst h
  case drw => exact congrArg Host.Outcome.next (State.drawRows_setErrors (s.setReg VF 0) _ _ _ es)
  case stRegs => exact congrArg Host.Outcome.next (State.storeRegs_setErrors s _ es)
  case ldRegs => exact congrArg Host.Outcome.next (State.loadRegs_setErrors s _ es)
  all_goals
    simp only [newErrors, List.append_nil]
  case seImm | sneImm | seReg | sneReg | skp | sknp => exact congrArg Host.Outcome.next (State.skipIf_setErrors s _ es)
  case ldReg x y =>
    cases hmove : s.move8xy0
    · exact execLdReg_nop hmove
    · exact execLdReg_move hmove
  case ldVxK x =>
    cases hkey : heldKey s.input
    · exact execLdVxK_none hkey
    · exact execLdVxK_held hkey
  all_goals rfl

/-- The fetch of a step adds its records before those of the instruction. -/
theorem State.handlerState_setErrors (s : State) (inp : StepInput) :
    (s.setErrors es).handlerState inp = (s.handlerState inp).setErrors
      (es ++ accessError .read s.pc.toNat ++ accessError .read (s.pc.toNat + 1)) := by
  have hfetch : ((s.setErrors es).beginStep inp).fetch.2 = (s.beginStep inp).fetch.2.setErrors
      (es ++ accessError .read s.pc.toNat ++ accessError .read (s.pc.toNat + 1)) := by
    rw [State.fetch_state, State.fetch_state]
    show ((((s.beginStep inp).setErrors es).memRead s.pc.toNat).2.memRead (s.pc.toNat + 1)).2 = _
    rw [State.memRead_setErrors, State.memRead_setErrors]
    rfl
  rw [State.handlerState, hfetch]
  rfl

end

/-- The step does the same under any earlier errors, and adds the records `new` to them. -/
def StepAppends (s t : State) (new : List ErrorRecord) : Prop :=
  ∀ es, step (s.setErrors es) = .next (t.setErrors (es ++ new))

/-- The run of an instruction in the handler's state, with the records of the fetch before those of the instruction. -/
theorem exec_handlerState_appends (i : Instr) (s : State) (inp : StepInput) :
    ∃ (t : State) (new : List ErrorRecord),
      ∀ es, exec i ((s.setErrors es).handlerState inp) = .next (t.setErrors (es ++ new)) := by
  obtain ⟨t, h⟩ := exec_next i (s.handlerState inp)
  refine ⟨t, accessError .read s.pc.toNat ++ (accessError .read (s.pc.toNat + 1) ++ newErrors (s.handlerState inp) i),
    fun es => ?_⟩
  rw [State.handlerState_setErrors, exec_setErrors _ h, List.append_assoc, List.append_assoc]

/-- Each kind of a step: an instruction after its fetch, or a frame tick or a quit, which add no record. -/
theorem step_appends (s : State) : ∃ t new, StepAppends s t new := by
  obtain ⟨inp, rest, hs, -⟩ | ⟨hs, -⟩ | ⟨rest, hs, -⟩ | ⟨rest, hs, -⟩ := step_cases s
  · obtain ⟨t, new, h⟩ := exec_handlerState_appends (decode s.nextWord) (s.setSchedule rest) inp
    exact ⟨t, new, fun es => (step_cpu (s := s.setErrors es) hs).trans (h es)⟩
  · obtain ⟨t, new, h⟩ :=
      exec_handlerState_appends (decode s.nextWord) (s.setDraws (s.draws + 1)) (Config.freeInput s.draws)
    exact ⟨t, new, fun es => (step_free (s := s.setErrors es) hs).trans (h es)⟩
  · refine ⟨(s.setSchedule rest).frameTick, [], fun es => ?_⟩
    rw [step_tick (s := s.setErrors es) hs, List.append_nil]
    rfl
  · refine ⟨s, [], fun es => ?_⟩
    rw [step_quit (s := s.setErrors es) hs, List.append_nil]

/-- Settles O16: the step itself is the case of the errors that `s` holds. -/
theorem errorsAreOutputsThatNoInstructionReads : Obligations.ErrorsAreOutputsThatNoInstructionReads := by
  intro s
  obtain ⟨t, new, h⟩ := step_appends s
  exact ⟨t.setErrors (s.errors ++ new), new, h s.errors, rfl, h⟩

/-! ## The inputs (R129) -/

theorem State.skipIf_setInput (s : State) (c : Bool) (inp : StepInput) :
    (s.setInput inp).skipIf c = (s.skipIf c).setInput inp := by
  cases c <;> rfl

section
variable {s t : State} (inp : StepInput)

theorem execRet_setInput (h : execRet s = .next t) : execRet (s.setInput inp) = .next (t.setInput inp) := by
  by_cases hsp : s.sp = -1
  · cases (execRet_empty hsp).symm.trans h
    exact execRet_empty hsp
  · cases (execRet_some hsp).symm.trans h
    exact execRet_some hsp

theorem execCall_setInput {nnn : Addr12} (h : execCall nnn s = .next t) :
    execCall nnn (s.setInput inp) = .next (t.setInput inp) := by
  by_cases hsp : s.sp = 15
  · cases (execCall_full hsp).symm.trans h
    exact execCall_full hsp
  · cases (execCall_room hsp).symm.trans h
    exact execCall_room hsp

theorem execLdB_setInput {x : Reg} (h : execLdB x s = .next t) : execLdB x (s.setInput inp) = .next (t.setInput inp) := by
  injection h with h
  subst h
  simp only [← State.memWrite_setInput]
  rfl

/-- The instruction reads the same from both inputs. -/
def ReadsSame (a b : StepInput) : Instr → Prop
  | .skp _ => keyAnswer a = keyAnswer b
  | .sknp _ => keyAnswer a = keyAnswer b
  | .ldVxK _ => heldKey a = heldKey b
  | .rnd _ _ => a.rand = b.rand
  | _ => True

/-- An instruction does the same under any inputs from which it reads the same. -/
theorem exec_setInput {i : Instr} (h : exec i s = .next t) (hread : ReadsSame inp s.input i) :
    exec i (s.setInput inp) = .next (t.setInput inp) := by
  cases i
  case ret => exact execRet_setInput inp h
  case call => exact execCall_setInput inp h
  case ldB => exact execLdB_setInput inp h
  all_goals
    injection h with h
    subst h
  case drw => exact congrArg Host.Outcome.next (State.drawRows_setInput (s.setReg VF 0) _ _ _ inp)
  case stRegs => exact congrArg Host.Outcome.next (State.storeRegs_setInput s _ inp)
  case ldRegs => exact congrArg Host.Outcome.next (State.loadRegs_setInput s _ inp)
  case seImm | sneImm | seReg | sneReg => exact congrArg Host.Outcome.next (State.skipIf_setInput s _ inp)
  case skp | sknp =>
    rw [← show keyAnswer inp = keyAnswer s.input from hread]
    exact congrArg Host.Outcome.next (State.skipIf_setInput s _ inp)
  case rnd x kk =>
    rw [← show inp.rand = s.input.rand from hread]
    rfl
  case ldReg x y =>
    cases hmove : s.move8xy0
    · exact execLdReg_nop hmove
    · exact execLdReg_move hmove
  case ldVxK x =>
    cases hkey : heldKey s.input
    · exact execLdVxK_none (s := s.setInput inp) (hread.trans hkey)
    · exact execLdVxK_held (s := s.setInput inp) (hread.trans hkey)
  all_goals rfl

end

theorem readsSame_of_not_key_instr {a b : StepInput} {i : Instr} (hrand : a.rand = b.rand)
    (h : ∀ x, i ≠ .skp x ∧ i ≠ .sknp x ∧ i ≠ .ldVxK x) : ReadsSame a b i := by
  cases i
  case skp x => exact absurd rfl (h x).1
  case sknp x => exact absurd rfl (h x).2.1
  case ldVxK x => exact absurd rfl (h x).2.2
  case rnd => exact hrand
  all_goals trivial

/-- The random byte is no part of the key inputs. -/
theorem readsSame_rand_of_not_rnd (a : StepInput) (b : Byte) {i : Instr} (h : ∀ x kk, i ≠ .rnd x kk) :
    ReadsSame { a with rand := b } a i := by
  cases i
  case rnd x kk => exact absurd rfl (h x kk)
  case skp | sknp | ldVxK => exact rfl
  all_goals trivial

/-- Settles O17: the key inputs are read by the key instructions only, the random byte by Cxkk only. -/
theorem inputsAreReadOnlyByTheirInstructions : Obligations.InputsAreReadOnlyByTheirInstructions := by
  intro i s
  obtain ⟨t, h⟩ := exec_next i s
  exact ⟨t, h, fun hkey inp hrand => exec_setInput inp h (readsSame_of_not_key_instr hrand hkey),
    fun hrnd b => exec_setInput _ h (readsSame_rand_of_not_rnd s.input b hrnd)⟩

/-! ## The held key (R129) -/

section
variable {inp : StepInput}

theorem heldKey_of_choice_held (h : keyHeld inp inp.choice = true) : heldKey inp = some inp.choice := if_pos h

/-- With the choice not held the answer is searched among all keys. -/
theorem heldKey_of_choice_not_held (h : ¬ keyHeld inp inp.choice = true) :
    heldKey inp = allKeys.find? (keyHeld inp) := if_neg h

theorem heldKey_eq_none_iff : heldKey inp = none ↔ ∀ k, keyHeld inp k = false := by
  by_cases hc : keyHeld inp inp.choice = true
  · rw [heldKey_of_choice_held hc]
    exact ⟨nofun, fun h => absurd ((h inp.choice).symm.trans hc) nofun⟩
  · rw [heldKey_of_choice_not_held hc, List.find?_eq_none]
    simp [mem_allKeys]

theorem keyHeld_of_heldKey {k : Key} (h : heldKey inp = some k) : keyHeld inp k = true := by
  by_cases hc : keyHeld inp inp.choice = true
  · rw [heldKey_of_choice_held hc] at h
    injection h with h
    exact h ▸ hc
  · rw [heldKey_of_choice_not_held hc] at h
    exact List.find?_some h

end

/-- Settles O18: the choice that names a held key is followed. -/
theorem heldKeyIsAnyHeldKey : Obligations.HeldKeyIsAnyHeldKey := fun inp =>
  ⟨heldKey_eq_none_iff, fun _ h => keyHeld_of_heldKey h,
    fun k h => heldKey_of_choice_held (inp := { inp with choice := k }) h⟩

end Sys2Proof.Machine
end

section
/-! PROOFS. Control flow (spec/41_control_flow.md R140–R148). A word written as its parts is by definition the encoding of its
instruction, so what it decodes to is `decodeOfEncodeIsTheInstruction`. -/

namespace Sys2Proof.Machine

/-! ## The call stack: what a CALL with room leaves, and which slot a legal SP names -/

theorem State.slot_fin (s : State) (j : Fin 16) : s.slot j = s.stack[j] := by
  simp [State.slot]

theorem State.slot_congr {s t : State} (h : t.stack = s.stack) (j : Int) : t.slot j = s.slot j := by
  simp only [State.slot, h]

/-- The state after a CALL with room (R143). -/
def State.afterCall (s : State) (nnn : Addr12) : State :=
  ((s.setSp (s.sp + 1)).setSlot (s.sp + 1) s.pc).setPc (wordOfAddr nnn)

section
variable (s : State) (nnn : Addr12)

@[simp] theorem State.afterCall_pc : (s.afterCall nnn).pc = wordOfAddr nnn := rfl
@[simp] theorem State.afterCall_sp : (s.afterCall nnn).sp = s.sp + 1 := rfl
@[simp] theorem State.afterCall_errors : (s.afterCall nnn).errors = s.errors := rfl

variable {s}

theorem exec_call_room (h : s.sp < 15) : exec (.call nnn) s = .next (s.afterCall nnn) := execCall_room h.ne

/-- The slot above the top holds the address after the call. -/
theorem State.afterCall_slot (hlo : -1 ≤ s.sp) (hhi : s.sp < 15) : (s.afterCall nnn).slot (s.sp + 1) = s.pc := by
  rw [State.afterCall, State.setPc_slot, State.slot_setSlot _ _ (by omega) (by omega), if_pos rfl]

theorem changesOnly_afterCall (hlo : -1 ≤ s.sp) : ChangesOnly s (s.afterCall nnn)
    (fun p => p = .pc ∨ p = .sp ∨ ∃ j : Fin 16, (j : Int) = s.sp + 1 ∧ p = .slot j) := by
  have hslot := changesOnly_setSlot (s.setSp (s.sp + 1)) (s.sp + 1) s.pc
  exact (((changesOnly_setSp s _).mono fun _ hp => Or.inr (Or.inl hp)).trans
    (hslot.mono fun _ ⟨j, hj, hp⟩ => Or.inr (Or.inr ⟨j, by omega, hp⟩))).trans
    ((changesOnly_setPc _ _).mono fun _ hp => Or.inl hp)

end

/-- Settles O31: RET pops the slot that the CALL wrote. -/
theorem returnResumesAfterTheCall : Obligations.ReturnResumesAfterTheCall := by
  intro nnn s t u hlo hhi hcall hstack hsp
  cases (exec_call_room nnn hhi).symm.trans hcall
  rw [State.afterCall_sp] at hsp
  have htop : u.slot u.sp = s.pc := by
    rw [State.slot_congr hstack, hsp, State.afterCall_slot nnn hlo hhi]
  refine ⟨_, execRet_some (by omega), htop, ?_⟩
  show u.sp - 1 = s.sp
  omega

/-! ## Nested calls -/

theorem runInstrs_cons {i : Instr} {s t : State} (is : List Instr) (h : exec i s = .next t) :
    runInstrs (i :: is) s = runInstrs is t := by
  simp only [runInstrs, h]

/-- Calls in a row that the stack has room for: each raises SP by 1, none reports. -/
theorem runInstrs_calls (targets : List Addr12) : ∀ s : State, s.sp + targets.length ≤ 15 →
    ∃ t, runInstrs (targets.map .call) s = .next t ∧ t.sp = s.sp + targets.length ∧ t.errors = s.errors := by
  induction targets with
  | nil => exact fun s _ => ⟨s, rfl, by simp, rfl⟩
  | cons nnn rest ih =>
    intro s hroom
    rw [List.length_cons] at hroom ⊢
    obtain ⟨t, hrun, hsp, herr⟩ := ih (s.afterCall nnn) (by rw [State.afterCall_sp]; omega)
    rw [State.afterCall_sp] at hsp
    refine ⟨t, ?_, by omega, herr⟩
    rw [List.map_cons, runInstrs_cons _ (exec_call_room nnn (by omega)), hrun]

/-- Settles O32: 16 calls fill the stack from SP = −1. -/
theorem sixteenCallsNestAndTheSeventeenthOverflows : Obligations.SixteenCallsNestAndTheSeventeenthOverflows := by
  intro s targets nnn hempty hlen
  obtain ⟨t, hrun, hsp, herr⟩ := runInstrs_calls targets s (by omega)
  have hfull : t.sp = 15 := by omega
  exact ⟨t, hrun, hfull, herr, execCall_full hfull⟩

/-! ## SYS and the jumps -/

/-- Settles O26: a 0nnn word that is neither 00E0 nor 00EE encodes a well-formed SYS. -/
theorem legacySystemCallIsANoOp : Obligations.LegacySystemCallIsANoOp := by
  refine ⟨fun nnn hcls hret => ?_, fun _ _ => rfl⟩
  have hfree : nnn ∉ sysTaken := by simp [sysTaken, hcls, hret]
  exact decodeOfEncodeIsTheInstruction (.sys nnn) (wf_sys.mpr hfree)

/-- V0 + nnn is at most 0xFF + 0xFFF, so the 16-bit sum is exact (D7). -/
theorem wordOfByte_add_wordOfAddr_toNat (b : Byte) (nnn : Addr12) :
    (wordOfByte b + wordOfAddr nnn).toNat = b.toNat + nnn.toNat := by
  rw [BitVec.toNat_add, wordOfByte_toNat, wordOfAddr_toNat]
  omega

/-- Settles O28: both jumps write PC alone. -/
theorem jumpsTakeTheirTarget : Obligations.JumpsTakeTheirTarget := by
  intro nnn
  refine ⟨decodeOfEncodeIsTheInstruction (.jp nnn) rfl, decodeOfEncodeIsTheInstruction (.jpV0 nnn) rfl, fun s => ⟨?_, ?_⟩⟩
  · exact ⟨_, rfl, wordOfAddr_toNat nnn, changesOnly_setPc s _⟩
  · exact ⟨_, rfl, wordOfByte_add_wordOfAddr_toNat _ nnn, changesOnly_setPc s _⟩

/-! ## CALL and RET -/

/-- Settles O29. -/
theorem callPushesAndJumpsOrOverflows : Obligations.CallPushesAndJumpsOrOverflows := by
  intro nnn
  refine ⟨decodeOfEncodeIsTheInstruction (.call nnn) rfl, fun s => ⟨fun hlo hhi => ?_, fun hfull => execCall_full hfull⟩⟩
  have hslot : ∀ j : Fin 16, (j : Int) = s.sp + 1 → (s.afterCall nnn).stack[j] = s.pc := fun j hj => by
    rw [← State.slot_fin, hj, State.afterCall_slot nnn hlo hhi]
  exact ⟨_, exec_call_room nnn hhi, wordOfAddr_toNat nnn, rfl, hslot, changesOnly_afterCall nnn hlo⟩

/-- Settles O30: SP = j in 0..15 names slot j, which RET reads and does not write. -/
theorem returnPopsOrUnderflows : Obligations.ReturnPopsOrUnderflows := by
  refine ⟨decodeOfEncodeIsTheInstruction .ret rfl, fun s => ⟨fun j hj => ?_, fun hempty => execRet_empty hempty⟩⟩
  have htop : s.slot s.sp = s.stack[j] := by rw [hj, State.slot_fin]
  refine ⟨_, execRet_some (by omega), htop, rfl, ?_⟩
  exact ((changesOnly_setSp s _).mono fun _ hp => Or.inr hp).trans
    ((changesOnly_setPc _ _).mono fun _ hp => Or.inl hp)

/-! ## The skips on registers and immediates: two bytes compared (R127) -/

section
variable (s : State) (a b : Byte)

theorem State.skipIf_beq_pc_toNat :
    (s.skipIf (a == b)).pc.toNat = if a = b then (s.pc.toNat + 2) % 65536 else s.pc.toNat := by
  simp only [State.skipIf_pc_toNat, beq_iff_eq]

theorem State.skipIf_bne_pc_toNat :
    (s.skipIf (a != b)).pc.toNat = if a = b then s.pc.toNat else (s.pc.toNat + 2) % 65536 := by
  simp only [State.skipIf_pc_toNat, bne_iff_ne, ite_not]

end

/-- Settles O33. -/
theorem skipsOnImmediate : Obligations.SkipsOnImmediate := by
  intro x kk
  refine ⟨decodeOfEncodeIsTheInstruction (.seImm x kk) rfl, decodeOfEncodeIsTheInstruction (.sneImm x kk) rfl,
    fun s => ⟨?_, ?_⟩⟩
  · exact ⟨_, rfl, s.skipIf_beq_pc_toNat (s.reg x) kk, changesOnly_skipIf s _⟩
  · exact ⟨_, rfl, s.skipIf_bne_pc_toNat (s.reg x) kk, changesOnly_skipIf s _⟩

/-- Settles O34: the handlers do not read the low nibble. -/
theorem skipsOnRegisters : Obligations.SkipsOnRegisters := by
  intro x y n
  refine ⟨decodeOfEncodeIsTheInstruction (.seReg x y n) rfl, decodeOfEncodeIsTheInstruction (.sneReg x y n) rfl,
    fun s => ⟨?_, ?_⟩⟩
  · exact ⟨_, rfl, s.skipIf_beq_pc_toNat (s.reg x) (s.reg y), changesOnly_skipIf s _⟩
  · exact ⟨_, rfl, s.skipIf_bne_pc_toNat (s.reg x) (s.reg y), changesOnly_skipIf s _⟩

end Sys2Proof.Machine
end

section
/-! PROOFS. Register loads, arithmetic, logic and the random byte (spec/42_alu.md R160–R173). A meaning without a flag is one
`setReg`, a meaning with a flag one `setWithFlag`; what is left is the value of the byte written and of the flag. -/

namespace Sys2Proof.Machine

/-! ## The flags as numbers, and the results that wrap (R166–R170, R173) -/

section
variable (a b : Byte)

theorem flagByte_toNat (f : Bool) : (flagByte f).toNat = f.toNat := by
  cases f <;> rfl

theorem flagByte_decide_toNat (p : Prop) [Decidable p] : (flagByte (decide p)).toNat = if p then 1 else 0 := by
  by_cases h : p <;> simp [flagByte_toNat, h]

theorem flagByte_carryOut_toNat : (flagByte (carryOut a b)).toNat = if a.toNat + b.toNat > 255 then 1 else 0 :=
  flagByte_decide_toNat _

theorem flagByte_noBorrow_toNat : (flagByte (noBorrow a b)).toNat = if a.toNat ≥ b.toNat then 1 else 0 :=
  flagByte_decide_toNat _

/-- One bit of a byte, as the flag it is stored in. -/
theorem flagByte_getLsbD_toNat (k : Nat) : (flagByte (a.getLsbD k)).toNat = a.toNat / 2 ^ k % 2 := by
  rw [flagByte_toNat, ← BitVec.testBit_toNat, Nat.toNat_testBit]

theorem flagByte_lsbOut_toNat : (flagByte (lsbOut a)).toNat = a.toNat % 2 := by
  rw [lsbOut, flagByte_getLsbD_toNat, Nat.pow_zero, Nat.div_one]

/-- Bit 7 is the highest, so nothing is left to reduce. -/
theorem flagByte_msbOut_toNat : (flagByte (msbOut a)).toNat = a.toNat / 128 := by
  rw [msbOut, flagByte_getLsbD_toNat]
  omega

/-- A negative difference d becomes d + 256 (R173). -/
theorem sub_toNat_eq_emod : ((a - b).toNat : Int) = (a.toNat - b.toNat : Int) % 256 := by
  rw [BitVec.toNat_sub]
  omega

theorem shiftRight_one_toNat : (a >>> 1).toNat = a.toNat / 2 := by
  rw [BitVec.toNat_ushiftRight, Nat.shiftRight_one]

theorem shiftLeft_one_toNat : (a <<< 1).toNat = a.toNat * 2 % 256 := by
  rw [BitVec.toNat_shiftLeft, Nat.shiftLeft_eq]

end

/-! ## Vx and VF after a write of both (R31) -/

section
variable (s : State) {x : Reg} (b : Byte) (f : Bool)

theorem State.setWithFlag_reg_self (hx : x ≠ VF) : (s.setWithFlag x b f).reg x = b := by
  rw [State.setWithFlag_reg, if_neg hx, if_pos rfl]

theorem State.setWithFlag_reg_VF (x : Reg) : (s.setWithFlag x b f).reg VF = flagByte f := by
  rw [State.setWithFlag_reg, if_pos rfl]

end

/-! ## The instructions without a flag -/

/-- Settles O27: the meaning of each of the three is the state it is given. -/
theorem unassignedSubOpcodesAreNoOps : Obligations.UnassignedSubOpcodesAreNoOps :=
  ⟨fun _ _ _ _ => rfl, fun _ _ _ => rfl, fun _ _ _ => rfl⟩

/-- Settles O36. -/
theorem immediateLoadAndAdd : Obligations.ImmediateLoadAndAdd := by
  intro x kk
  refine ⟨decodeOfEncodeIsTheInstruction (.ldImm x kk) rfl, decodeOfEncodeIsTheInstruction (.addImm x kk) rfl,
    fun s => ⟨?_, ?_⟩⟩
  · exact ⟨_, rfl, s.reg_setReg_self x kk, changesOnly_setReg s x _⟩
  · refine ⟨_, rfl, ?_, changesOnly_setReg s x _⟩
    rw [State.reg_setReg_self, BitVec.toNat_add]

/-- Settles O37. -/
theorem registerMoveFollowsItsParameter : Obligations.RegisterMoveFollowsItsParameter := by
  intro x y
  refine ⟨decodeOfEncodeIsTheInstruction (.ldReg x y) rfl, fun s => ⟨fun hmove => ?_, fun hkeep => execLdReg_nop hkeep⟩⟩
  exact ⟨_, execLdReg_move hmove, s.reg_setReg_self x _, changesOnly_setReg s x _⟩

/-- Settles O38: none of the three writes VF unless x = F. -/
theorem logicWorksBitByBit : Obligations.LogicWorksBitByBit := by
  intro x y
  refine ⟨decodeOfEncodeIsTheInstruction (.orReg x y) rfl, decodeOfEncodeIsTheInstruction (.andReg x y) rfl,
    decodeOfEncodeIsTheInstruction (.xorReg x y) rfl, fun s => ⟨?_, ?_, ?_⟩⟩
  · refine ⟨_, rfl, fun k => ?_, changesOnly_setReg s x _⟩
    rw [State.reg_setReg_self, BitVec.getLsbD_or]
  · refine ⟨_, rfl, fun k => ?_, changesOnly_setReg s x _⟩
    rw [State.reg_setReg_self, BitVec.getLsbD_and]
  · refine ⟨_, rfl, fun k => ?_, changesOnly_setReg s x _⟩
    rw [State.reg_setReg_self, BitVec.getLsbD_xor]

/-- Settles O42: the byte is whatever stands in the inputs of the step. -/
theorem randomByteIsMasked : Obligations.RandomByteIsMasked := by
  intro x kk
  refine ⟨decodeOfEncodeIsTheInstruction (.rnd x kk) rfl, fun s => ⟨_, rfl, fun k => ?_, changesOnly_setReg s x _⟩⟩
  rw [State.reg_setReg_self, BitVec.getLsbD_and]

/-! ## The instructions with a flag: for x = F the flag is written last -/

/-- Settles O39. -/
theorem addSetsCarry : Obligations.AddSetsCarry := by
  intro x y
  refine ⟨decodeOfEncodeIsTheInstruction (.addReg x y) rfl, fun s =>
    ⟨_, rfl, fun hx => ?_, ?_, changesOnly_setWithFlag s x _ _⟩⟩
  · rw [State.setWithFlag_reg_self s _ _ hx, BitVec.toNat_add]
  · rw [State.setWithFlag_reg_VF, flagByte_carryOut_toNat]

/-- SUB and SUBN for any minuend a and subtrahend b: the difference and its no-borrow flag (R167, R169). -/
theorem State.setWithFlag_difference (s : State) (x : Reg) (a b : Byte) :
    (x ≠ VF → (((s.setWithFlag x (a - b) (noBorrow a b)).reg x).toNat : Int) = (a.toNat - b.toNat : Int) % 256) ∧
    ((s.setWithFlag x (a - b) (noBorrow a b)).reg VF).toNat = if a.toNat ≥ b.toNat then 1 else 0 := by
  refine ⟨fun hx => ?_, ?_⟩
  · rw [State.setWithFlag_reg_self s _ _ hx, sub_toNat_eq_emod]
  · rw [State.setWithFlag_reg_VF, flagByte_noBorrow_toNat]

/-- Settles O40. -/
theorem subtractSetsNoBorrow : Obligations.SubtractSetsNoBorrow := by
  intro x y
  refine ⟨decodeOfEncodeIsTheInstruction (.subReg x y) rfl, decodeOfEncodeIsTheInstruction (.subnReg x y) rfl,
    fun s => ⟨?_, ?_⟩⟩
  · obtain ⟨hx, hVF⟩ := s.setWithFlag_difference x (s.reg x) (s.reg y)
    exact ⟨_, rfl, hx, hVF, changesOnly_setWithFlag s x _ _⟩
  · obtain ⟨hx, hVF⟩ := s.setWithFlag_difference x (s.reg y) (s.reg x)
    exact ⟨_, rfl, hx, hVF, changesOnly_setWithFlag s x _ _⟩

/-- Settles O41: the handlers do not read Vy. -/
theorem shiftsPutTheLostBitInVF : Obligations.ShiftsPutTheLostBitInVF := by
  intro x y
  refine ⟨decodeOfEncodeIsTheInstruction (.shr x y) rfl, decodeOfEncodeIsTheInstruction (.shl x y) rfl,
    fun s => ⟨?_, ?_⟩⟩
  · refine ⟨_, rfl, fun hx => ?_, ?_, changesOnly_setWithFlag s x _ _⟩
    · rw [State.setWithFlag_reg_self s _ _ hx, shiftRight_one_toNat]
    · rw [State.setWithFlag_reg_VF, flagByte_lsbOut_toNat]
  · refine ⟨_, rfl, fun hx => ?_, ?_, changesOnly_setWithFlag s x _ _⟩
    · rw [State.setWithFlag_reg_self s _ _ hx, shiftLeft_one_toNat]
    · rw [State.setWithFlag_reg_VF, flagByte_msbOut_toNat]

end Sys2Proof.Machine
end

section
/-! PROOFS. The index register and the transfers between registers and store (spec/43_index_memory.md R180–R185): what I, the
store and the registers hold. The errors and the frame of a transfer are those of every instruction. -/

namespace Sys2Proof.Machine

/-! ## The values written to I, and the decimal digits -/

section
variable (b : Byte)

/-- The glyph of the highest nibble stands at 5 · 15 = 75, so the address is exact (R182). -/
theorem glyphAddr_toNat : (glyphAddr b).toNat = 5 * (b.toNat % 16) :=
  Nat.mod_eq_of_lt (by omega)

theorem hundreds_toNat : (hundreds b).toNat = b.toNat / 100 :=
  Nat.mod_eq_of_lt (Nat.div_lt_of_lt b.isLt)

theorem tens_toNat : (tens b).toNat = b.toNat / 10 % 10 :=
  Nat.mod_eq_of_lt (by omega)

theorem ones_toNat : (ones b).toNat = b.toNat % 10 :=
  Nat.mod_eq_of_lt (by omega)

end

/-! ## Bytes of the store -/

section
variable (s : State) {a b : Nat}

theorem State.ea_ne {j k : Nat} (h : j ≠ k) : s.ea j ≠ s.ea k := fun heq => h (Nat.add_left_cancel heq)

theorem State.readByte_eq_ite (a : Nat) : s.readByte a = if a ≤ 0xFFF then s.mem.read a else 0x00 :=
  if_congr (inStore_iff a) rfl rfl

theorem State.memWrite_readByte_self (x : Byte) (h : a ≤ 0xFFF) : (s.memWrite a x).readByte a = x := by
  rw [State.memWrite_readByte, if_pos ⟨rfl, (inStore_iff a).mpr h⟩]

theorem State.memWrite_readByte_ne (x : Byte) (h : b ≠ a) : (s.memWrite a x).readByte b = s.readByte b := by
  rw [State.memWrite_readByte, if_neg fun hb => h hb.1]

end

/-! ## Transfers -/

/-- What an instruction reports comes after the errors reported before it. -/
theorem exec_errors {i : Instr} {s t : State} (h : exec i s = .next t) : t.errors = s.errors ++ newErrors s i := by
  have hsame : exec i s = .next (t.setErrors (s.errors ++ newErrors s i)) := exec_setErrors s.errors h
  rw [h] at hsame
  injection hsame with hsame
  rw [hsame, State.setErrors_errors]

/-- Each digit with its address in the store stands there: the three addresses differ, so no later digit overwrites it. -/
theorem execLdB_readByte {x : Reg} {s t : State} (h : execLdB x s = .next t) :
    (s.ea 0 ≤ 0xFFF → t.readByte (s.ea 0) = hundreds (s.reg x)) ∧
    (s.ea 1 ≤ 0xFFF → t.readByte (s.ea 1) = tens (s.reg x)) ∧
    (s.ea 2 ≤ 0xFFF → t.readByte (s.ea 2) = ones (s.reg x)) := by
  injection h with h
  subst h
  refine ⟨fun hin => ?_, fun hin => ?_, fun hin => ?_⟩
  · rw [State.memWrite_readByte_ne _ _ (s.ea_ne (by decide)), State.memWrite_readByte_ne _ _ (s.ea_ne (by decide)),
      State.memWrite_readByte_self _ _ hin]
  · rw [State.memWrite_readByte_ne _ _ (s.ea_ne (by decide)), State.memWrite_readByte_self _ _ hin]
  · exact State.memWrite_readByte_self _ _ hin

/-- Settles O45: the digits are the quotients and remainders by 10 and 100 of Vx. -/
theorem decimalDigitsAreStored : Obligations.DecimalDigitsAreStored := by
  intro x
  refine ⟨decodeOfEncodeIsTheInstruction (.ldB x) rfl, fun s => ?_⟩
  obtain ⟨t, hexec⟩ : ∃ t, exec (.ldB x) s = .next t := ⟨_, rfl⟩
  obtain ⟨hhundreds, htens, hones⟩ := execLdB_readByte hexec
  have hdigits : (s.reg x).toNat = 100 * ((s.reg x).toNat / 100) + 10 * ((s.reg x).toNat / 10 % 10) + (s.reg x).toNat % 10 := by
    omega
  refine ⟨t, _, _, _, hexec, hdigits, by omega, by omega, by omega, fun hin => ?_, fun hin => ?_, fun hin => ?_,
    exec_errors hexec, exec_changesOnly hexec⟩
  · exact (congrArg BitVec.toNat (hhundreds hin)).trans (hundreds_toNat _)
  · exact (congrArg BitVec.toNat (htens hin)).trans (tens_toNat _)
  · exact (congrArg BitVec.toNat (hones hin)).trans (ones_toNat _)

/-- Settles O46: the registers stand where they were stored, by induction on their number (`State.storeRegs_readByte`). -/
theorem registersAreStored : Obligations.RegistersAreStored := by
  intro x
  refine ⟨decodeOfEncodeIsTheInstruction (.stRegs x) rfl, fun s =>
    ⟨s.storeRegs (x.toNat + 1), rfl, fun r hr hin => ?_, exec_errors (i := .stRegs x) rfl,
      exec_changesOnly (i := .stRegs x) rfl⟩⟩
  rw [State.storeRegs_readByte s (Nat.lt_succ_of_le hr) hin, regOfNat_self]

/-- Settles O47: a register takes what a read at its address returns. -/
theorem registersAreLoaded : Obligations.RegistersAreLoaded := by
  intro x
  refine ⟨decodeOfEncodeIsTheInstruction (.ldRegs x) rfl, fun s =>
    ⟨s.loadRegs (x.toNat + 1), rfl, fun r hr => ?_, exec_errors (i := .ldRegs x) rfl,
      exec_changesOnly (i := .ldRegs x) rfl⟩⟩
  rw [State.loadRegs_reg s x.isLt (Nat.lt_succ_of_le hr), State.readByte_eq_ite]

/-! ## The instructions that write I -/

/-- Settles O43: both instructions are one write of I. -/
theorem indexLoadsAddressAndGlyph : Obligations.IndexLoadsAddressAndGlyph := by
  refine ⟨fun nnn => ⟨decodeOfEncodeIsTheInstruction (.ldI nnn) rfl, fun s => ?_⟩,
    fun x => ⟨decodeOfEncodeIsTheInstruction (.ldF x) rfl, fun s => ?_⟩⟩
  · exact ⟨_, rfl, wordOfAddr_toNat nnn, changesOnly_setI s _⟩
  · exact ⟨_, rfl, glyphAddr_toNat _, changesOnly_setI s _⟩

/-- Settles O44: VF is no part of the frame. -/
theorem addToIndexWraps : Obligations.AddToIndexWraps := by
  intro x
  refine ⟨decodeOfEncodeIsTheInstruction (.addI x) rfl, fun s => ⟨_, rfl, ?_, changesOnly_setI s _⟩⟩
  rw [State.setI_i, BitVec.toNat_add, wordOfByte_toNat]

end Sys2Proof.Machine
end

section
/-! PROOFS. The display (spec/44_display.md R200–R203): what a draw does to the cells and to VF, said of its handler once, and
which steps change the framebuffer or present it. -/

namespace Sys2Proof.Machine

/-! ## The effect of one draw (R201) -/

section
variable {s t : State} {x y : Reg} {n : Nibble}

/-- A draw toggles exactly the cells its sprite covers; clearing VF before the loop changes none of them. -/
theorem execDrw_pixel (h : execDrw x y n s = .next t) (r : Fin 32) (c : Fin 64) :
    pixel t.fb r c = (pixel s.fb r c ^^ spriteCovers s x y n r c) := by
  injection h with h
  subst h
  rw [spriteCovers_eq]
  exact State.drawRows_pixel (s.setReg VF 0) _ _ _ r c (by omega)

/-- Some cell that the sprite covers is on: the collision of R201. -/
def SpriteCollides (s : State) (x y : Reg) (n : Nibble) : Prop :=
  ∃ r c, spriteCovers s x y n r c = true ∧ pixel s.fb r c = true

theorem not_spriteCollides_iff :
    ¬ SpriteCollides s x y n ↔ ∀ r c, spriteCovers s x y n r c = true → pixel s.fb r c = false := by
  simp [SpriteCollides]

theorem execDrw_reg_VF (h : execDrw x y n s = .next t) :
    (SpriteCollides s x y n → t.reg VF = 1) ∧ (¬ SpriteCollides s x y n → t.reg VF = 0) := by
  injection h with h
  subst h
  have hrows := State.drawRows_reg (s.setReg VF 0) (s.reg x) (s.reg y) n.toNat (by omega) VF
  simp only [SpriteCollides, spriteCovers_eq]
  exact ⟨fun hhit => hrows.1 ⟨hhit, rfl⟩,
    fun hmiss => (hrows.2 fun hhit => hmiss hhit.1).trans (State.reg_setReg_self s VF 0)⟩

theorem execDrw_VF_eq_one_iff (h : execDrw x y n s = .next t) : t.reg VF = 1 ↔ SpriteCollides s x y n := by
  obtain ⟨hhit, hmiss⟩ := execDrw_reg_VF h
  exact ⟨fun hone => by_contra fun hno => absurd (hone.symm.trans (hmiss hno)) (by decide), hhit⟩

theorem execDrw_VF_eq_zero_iff (h : execDrw x y n s = .next t) : t.reg VF = 0 ↔ ¬ SpriteCollides s x y n := by
  obtain ⟨hhit, hmiss⟩ := execDrw_reg_VF h
  exact ⟨fun hzero hyes => absurd (hzero.symm.trans (hhit hyes)) (by decide), hmiss⟩

end

/-- Settles O49: the cells and VF are those of the loop over rows; the errors and the frame are those of every instruction. -/
theorem drawTogglesExactlyTheSpriteCells : Obligations.DrawTogglesExactlyTheSpriteCells := by
  intro x y n
  refine ⟨decodeOfEncodeIsTheInstruction (.drw x y n) rfl, fun s => ?_⟩
  obtain ⟨t, hexec⟩ : ∃ t, exec (.drw x y n) s = .next t := ⟨_, rfl⟩
  exact ⟨t, hexec, execDrw_pixel hexec, execDrw_VF_eq_one_iff hexec,
    (execDrw_VF_eq_zero_iff hexec).trans not_spriteCollides_iff, exec_errors hexec, exec_changesOnly hexec⟩

/-! ## A second draw of the same sprite (R202, in the form R201 gives) -/

section
variable {s t u v : State} {x y : Reg} {n : Nibble}

/-- The sprite is read from the store, I and the two coordinates alone. -/
theorem spriteCovers_congr (hmem : u.mem = s.mem) (hi : u.i = s.i) (hx : u.reg x = s.reg x) (hy : u.reg y = s.reg y) :
    spriteCovers u x y n = spriteCovers s x y n := by
  funext r c
  simp only [spriteCovers, State.readByte, hmem, hi, hx, hy]

/-- The second draw of a sprite toggles each cell back. -/
theorem execDrw_twice_fb (hfirst : execDrw x y n s = .next t) (hfb : u.fb = t.fb)
    (hcov : spriteCovers u x y n = spriteCovers s x y n) (hsecond : execDrw x y n u = .next v) : v.fb = s.fb := by
  refine framebuffer_ext fun r c => ?_
  rw [execDrw_pixel hsecond, hfb, execDrw_pixel hfirst, hcov, Bool.xor_assoc, Bool.xor_self, Bool.xor_false]

/-- The second draw collides where the sprite covers a cell that was off before the first. -/
theorem spriteCollides_after_draw_iff (hfirst : execDrw x y n s = .next t) (hfb : u.fb = t.fb)
    (hcov : spriteCovers u x y n = spriteCovers s x y n) :
    SpriteCollides u x y n ↔ ∃ r c, spriteCovers s x y n r c = true ∧ pixel s.fb r c = false := by
  refine exists_congr fun r => exists_congr fun c => ?_
  rw [hcov, hfb, execDrw_pixel hfirst]
  refine and_congr_right fun hc => ?_
  rw [hc, Bool.xor_true, Bool.not_eq_true']

/-- The cells that a draw turns on are the covered cells that were off. -/
theorem execDrw_turned_on_iff (h : execDrw x y n s = .next t) (r : Fin 32) (c : Fin 64) :
    pixel s.fb r c = false ∧ pixel t.fb r c = true ↔ spriteCovers s x y n r c = true ∧ pixel s.fb r c = false := by
  rw [and_comm (a := spriteCovers s x y n r c = true)]
  refine and_congr_right fun hoff => ?_
  rw [execDrw_pixel h, hoff, Bool.false_xor]

end

/-- Settles O50: both draws toggle the same cells, and the second collides exactly in the cells that the first turned on. -/
theorem secondDrawRestoresTheFramebuffer : Obligations.SecondDrawRestoresTheFramebuffer := by
  intro x y n s t u v hfirst hfb hmem hi hx hy hsecond
  have hcov : spriteCovers u x y n = spriteCovers s x y n := spriteCovers_congr hmem hi hx hy
  have hhit := spriteCollides_after_draw_iff hfirst hfb hcov
  refine ⟨execDrw_twice_fb hfirst hfb hcov hsecond, ?_, fun hoff => ?_, fun hon => ?_⟩
  · rw [execDrw_VF_eq_one_iff hsecond, hhit]
    simp only [execDrw_turned_on_iff hfirst]
  · rw [execDrw_VF_eq_one_iff hsecond, hhit]
    exact hoff
  · rw [execDrw_VF_eq_zero_iff hsecond, hhit]
    rintro ⟨r, c, hc, hoff⟩
    exact absurd ((hon r c hc).symm.trans hoff) (by decide)

/-! ## Clearing, and who touches the framebuffer (R200, R203) -/

/-- Settles O48: the handler replaces the framebuffer by the blank one. -/
theorem clearTurnsEveryCellOff : Obligations.ClearTurnsEveryCellOff :=
  ⟨decodeOfEncodeIsTheInstruction .cls rfl, fun s => ⟨_, rfl, pixel_blankFb, changesOnly_setFb s blankFb⟩⟩

theorem cls_or_drw_of_mayChange_pixel {s : State} {i : Instr} {r : Fin 32} {c : Fin 64}
    (h : mayChange s i (.pixel r c)) : i = .cls ∨ ∃ x y n, i = .drw x y n := by
  cases i <;> simp_all [mayChange]

theorem not_mayChange_presented (s : State) (i : Instr) : ¬ mayChange s i .presented := by
  cases i <;> simp [mayChange]

/-- Two different framebuffers differ in a cell. -/
theorem exists_pixel_ne {f g : Framebuffer} (h : f ≠ g) : ∃ r c, pixel f r c ≠ pixel g r c := by
  by_contra hall
  push Not at hall
  exact h (framebuffer_ext hall)

/-- Settles O22: a changed cell stands in the frame of the instruction, which is CLS or DRW; no instruction presents, and a
frame tick presents the framebuffer it leaves as it was. -/
theorem onlyClearAndDrawChangeTheFramebuffer : Obligations.OnlyClearAndDrawChangeTheFramebuffer := by
  intro s t h
  constructor
  · intro hne
    obtain ⟨r, c, hcell⟩ := exists_pixel_ne hne
    obtain ⟨i, hruns, hmay⟩ := step_changed_by_instr (p := .pixel r c) h trivial (by simp) hcell
    obtain rfl | ⟨x, y, n, rfl⟩ := cls_or_drw_of_mayChange_pixel hmay
    · exact Or.inl hruns
    · exact Or.inr ⟨x, y, n, hruns⟩
  · intro hne
    obtain ⟨⟨rest, hs⟩, -⟩ | ⟨i, -, hmay⟩ := step_changed (p := .presented) h trivial hne
    · rw [step_tick hs] at h
      injection h with h
      subst h
      exact ⟨rest, hs, rfl, rfl⟩
    · exact absurd hmay (not_mayChange_presented s i)

end Sys2Proof.Machine
end

section
/-! PROOFS. Keys and timers (spec/45_keys_timers.md R220–R226): the key skips, the timer transfers, the key wait, and a key
wait of any length. -/

namespace Sys2Proof.Machine

/-! ## A key wait of any length (R224, R250, R278) -/

/-- The parts that a key wait changes: the timers, the outputs `result` and `presented`, the step inputs and the schedule. -/
def Part.isWaitChanged (p : Part) : Prop :=
  p = .dt ∨ p = .st ∨ p = .result ∨ p = .presented ∨ p = .input ∨ p = .schedule

/-- `t` is a state that a key wait from `s` with `n` frame ticks leaves. -/
structure State.WaitsTo (s t : State) (n : Nat) : Prop where
  dt : t.dt.toNat = s.dt.toNat - n
  st : t.st.toNat = s.st.toNat - n
  frame : ChangesOnly s t Part.isWaitChanged

section
variable {s t u : State} {m n : Nat}

theorem State.WaitsTo.refl (s : State) : s.WaitsTo s 0 := ⟨rfl, rfl, ChangesOnly.refl s _⟩

theorem State.WaitsTo.trans (h : s.WaitsTo t m) (h' : t.WaitsTo u n) : s.WaitsTo u (m + n) where
  dt := by rw [h'.dt, h.dt, Nat.sub_sub]
  st := by rw [h'.st, h.st, Nat.sub_sub]
  frame := h.frame.trans h'.frame

theorem State.WaitsTo.pc (h : s.WaitsTo t n) : t.pc = s.pc := h.frame .pc (by simp [Part.isWaitChanged])

/-- A wait leaves PC and the store, so the next fetch reads the word it read before. -/
theorem State.WaitsTo.nextWord (h : s.WaitsTo t n) : t.nextWord = s.nextWord := by
  have hbyte : ∀ a, t.readByte a = s.readByte a := fun a => h.frame (.byte a) (by simp [Part.isWaitChanged])
  simp only [State.nextWord, h.pc, hbyte]

/-- The advance after the fetch and the rewind of the waiting Fx0A cancel (R122, R224). -/
theorem State.rewind_advance (s : State) : s.advance.rewind = s := by
  show { s with pc := s.pc + 2 - 2 } = s
  rw [BitVec.add_sub_cancel]

/-- A `step()` at an Fx0A with no key held leaves Retry, its inputs and the rest of the schedule; nothing else. -/
theorem step_at_key_wait {x : Reg} {inp : StepInput} {rest : List HostAct} (hs : s.schedule = .cpu inp :: rest)
    (hkeys : ∀ k, keyHeld inp k = false) (hpc : s.pc.toNat < 0xFFF) (hword : decode s.nextWord = .ldVxK x) :
    step s = .next (((s.setSchedule rest).setInput inp).setResult .retry) := by
  have hnone : heldKey ((s.setSchedule rest).handlerState inp).input = none := by
    rw [State.handlerState_input]
    exact heldKey_eq_none_iff.mpr hkeys
  rw [step_cpu hs, hword]
  show execLdVxK x _ = _
  rw [execLdVxK_none hnone, State.handlerState_inStore (s := s.setSchedule rest) inp hpc, State.rewind_advance]
  rfl

theorem waitsTo_retry (s : State) (inp : StepInput) (rest : List HostAct) :
    s.WaitsTo (((s.setSchedule rest).setInput inp).setResult .retry) 0 where
  dt := rfl
  st := rfl
  frame := by
    intro p hp
    cases p <;> simp_all [SamePart, Part.isWaitChanged]

theorem waitsTo_frameTick (s : State) (rest : List HostAct) : s.WaitsTo (s.setSchedule rest).frameTick 1 where
  dt := countDown_toNat s.dt
  st := countDown_toNat s.st
  frame :=
    ((changesOnly_setSchedule s rest).mono fun _ hp => by simp [Part.isWaitChanged, hp]).trans
      ((changesOnly_frameTick _).mono fun _ hp => by rcases hp with rfl | rfl | rfl <;> simp [Part.isWaitChanged])

theorem tickCount_cons (act : HostAct) (acts : List HostAct) :
    tickCount (act :: acts) = tickCount [act] + tickCount acts := by
  cases act <;> simp [tickCount, Nat.add_comm]

/-- One interaction of a key wait. -/
theorem step_waits {x : Reg} {act : HostAct} {rest : List HostAct} (hs : s.schedule = act :: rest) (hact : act.waits)
    (hpc : s.pc.toNat < 0xFFF) (hword : decode s.nextWord = .ldVxK x) :
    ∃ t, step s = .next t ∧ t.schedule = rest ∧ s.WaitsTo t (tickCount [act]) := by
  cases act with
  | cpu inp => exact ⟨_, step_at_key_wait hs hact hpc hword, rfl, waitsTo_retry s inp rest⟩
  | tick => exact ⟨_, step_tick hs, rfl, waitsTo_frameTick s rest⟩
  | quit => exact hact.elim

/-- A key wait of any length: PC stays at the Fx0A, so every interaction finds it there again. -/
theorem run_waits {x : Reg} (acts rest : List HostAct) : ∀ s : State, s.schedule = acts ++ rest →
    (∀ a ∈ acts, a.waits) → s.pc.toNat < 0xFFF → decode s.nextWord = .ldVxK x →
    ∃ t, Sys2Proof.core.run acts.length s = .next t ∧ t.schedule = rest ∧ s.WaitsTo t (tickCount acts) := by
  induction acts with
  | nil => exact fun s hs _ _ _ => ⟨s, rfl, hs, State.WaitsTo.refl s⟩
  | cons act acts ih =>
    intro s hs hacts hpc hword
    obtain ⟨hact, hacts⟩ := List.forall_mem_cons.mp hacts
    obtain ⟨t, hstep, ht, hwait⟩ := step_waits hs hact hpc hword
    obtain ⟨u, hrun, hu, hwait'⟩ := ih t ht hacts (hwait.pc ▸ hpc) (hwait.nextWord ▸ hword)
    exact ⟨u, (run_succ acts.length hstep).trans hrun, hu, tickCount_cons act acts ▸ hwait.trans hwait'⟩

end

/-- Settles O53, by induction on the interactions of the wait. -/
theorem waitingChangesOnlyTheTimers : Obligations.WaitingChangesOnlyTheTimers := by
  intro acts rest s x hs hacts hpc hword
  obtain ⟨t, hrun, ht, hwait⟩ := run_waits acts rest s hs hacts hpc hword
  exact ⟨t, hrun, ht, hwait.pc, hwait.dt, hwait.st, hwait.frame⟩

/-! ## The key skips (R220, R221) -/

/-- The key query of Ex9E and ExA1: the key state below 16, the step's draw from 16 up (D15). -/
theorem keyAnswer_eq_dite (inp : StepInput) (b : Byte) :
    keyAnswer inp b = if h : b.toNat < 16 then inp.keys[b.toNat] else inp.keyOutOfRange := by
  by_cases h : b.toNat < 16
  · have hle : b.toNat ≤ 15 := Nat.le_of_lt_succ h
    simp [keyAnswer, keyHeld, h, hle, Nat.mod_eq_of_lt h]
  · have hgt : ¬ b.toNat ≤ 15 := fun hle => h (Nat.lt_succ_of_le hle)
    simp [keyAnswer, h, hgt]

/-- Settles O35: SKNP skips on the negated answer. -/
theorem skipsOnKey : Obligations.SkipsOnKey := by
  intro x
  refine ⟨decodeOfEncodeIsTheInstruction (.skp x) rfl, decodeOfEncodeIsTheInstruction (.sknp x) rfl, fun s => ?_⟩
  rw [← keyAnswer_eq_dite]
  refine ⟨⟨_, rfl, s.skipIf_pc_toNat _, changesOnly_skipIf s _⟩, ⟨_, rfl, ?_, changesOnly_skipIf s _⟩⟩
  rw [State.skipIf_pc_toNat]
  cases keyAnswer s.input (s.reg x) <;> rfl

/-! ## The timers as operands (R223, R225, R226) -/

/-- Settles O51: each handler is one update. -/
theorem timersAreReadAndWritten : Obligations.TimersAreReadAndWritten := by
  intro x
  refine ⟨decodeOfEncodeIsTheInstruction (.ldVxDt x) rfl, decodeOfEncodeIsTheInstruction (.ldDtVx x) rfl,
    decodeOfEncodeIsTheInstruction (.ldStVx x) rfl, fun s => ⟨?_, ?_, ?_⟩⟩
  · exact ⟨_, rfl, s.reg_setReg_self x s.dt, changesOnly_setReg s x s.dt⟩
  · exact ⟨_, rfl, rfl, changesOnly_setDt s (s.reg x)⟩
  · exact ⟨_, rfl, rfl, changesOnly_setSt s (s.reg x)⟩

/-! ## One Fx0A (R224) -/

/-- With a key named, Fx0A loads its code. -/
theorem exec_ldVxK_held {s : State} {k : Key} (x : Reg) (h : heldKey s.input = some k) :
    ∃ t, exec (.ldVxK x) s = .next t ∧ (t.reg x).toNat = k.toNat ∧ ChangesOnly s t (fun p => p = .reg x) := by
  refine ⟨_, execLdVxK_held h, ?_, changesOnly_setReg s x _⟩
  rw [State.reg_setReg_self, BitVec.toNat_setWidth_of_le (by decide)]

/-- Settles O52: `heldKey` names a key exactly when one is held, and the key it names is held. -/
theorem keyWaitTakesAHeldKeyOrRetries : Obligations.KeyWaitTakesAHeldKeyOrRetries := by
  intro x
  refine ⟨decodeOfEncodeIsTheInstruction (.ldVxK x) rfl, fun s =>
    ⟨fun k hk => exec_ldVxK_held x hk, fun ⟨k, hk⟩ => ?_, fun hkeys => ?_⟩⟩
  · cases hheld : heldKey s.input with
    | none => exact absurd (hk.symm.trans (heldKey_eq_none_iff.mp hheld k)) nofun
    | some k' =>
      obtain ⟨t, hexec, hreg, hframe⟩ := exec_ldVxK_held x hheld
      exact ⟨t, k', hexec, keyHeld_of_heldKey hheld, hreg, hframe⟩
  · exact ⟨_, execLdVxK_none (heldKey_eq_none_iff.mpr hkeys), rfl, rfl,
      ((changesOnly_rewind s).mono fun _ hp => Or.inl hp).trans
        ((changesOnly_setResult _ _).mono fun _ hp => Or.inr hp)⟩

end Sys2Proof.Machine
end

section
/-! PROOFS. Frame ticks and the quit (spec/60_exceptions.md R250, R257, R258): one tick, any number of ticks, and the end of
the session. -/

namespace Sys2Proof.Machine

/-! ## The frame tick (R250) -/

@[simp] theorem State.frameTick_dt_toNat (s : State) : s.frameTick.dt.toNat = s.dt.toNat - 1 := countDown_toNat s.dt

@[simp] theorem State.frameTick_st_toNat (s : State) : s.frameTick.st.toNat = s.st.toNat - 1 := countDown_toNat s.st

/-- The truncated subtraction of 1 is the spec's count down with a floor of 0. -/
theorem sub_one_eq_ite (n : Nat) : n - 1 = if n > 0 then n - 1 else 0 := by
  split <;> omega

/-- The frame of a tick taken from the schedule: the tick's own frame and the schedule. -/
theorem changesOnly_scheduledTick (s : State) (rest : List HostAct) :
    ChangesOnly s (s.setSchedule rest).frameTick (fun p => p = .dt ∨ p = .st ∨ p = .presented ∨ p = .schedule) :=
  ((changesOnly_setSchedule s rest).mono fun _ hp => by simp [hp]).trans
    ((changesOnly_frameTick _).mono fun _ hp => by rcases hp with rfl | rfl | rfl <;> simp)

/-- Settles O54: the tick takes place on the state with the rest of the schedule, whose timers and FB are those of `s`. -/
theorem frameTickCountsDownAndPresents : Obligations.FrameTickCountsDownAndPresents := by
  intro s rest hs
  refine ⟨_, step_tick hs, rfl, ?_, ?_, rfl, changesOnly_scheduledTick s rest⟩
  · exact (State.frameTick_dt_toNat _).trans (sub_one_eq_ite s.dt.toNat)
  · exact (State.frameTick_st_toNat _).trans (sub_one_eq_ite s.st.toNat)

/-- Settles O55, by induction on the number of ticks: the first takes 1 from each timer, the others take `n` from the rest. -/
theorem timersReachZeroAndStay : Obligations.TimersReachZeroAndStay := by
  intro n
  induction n with
  | zero => exact fun s _ _ => ⟨s, rfl, rfl, rfl⟩
  | succ n ih =>
    intro s rest hs
    have hfirst := step_tick (rest := List.replicate n .tick ++ rest) hs
    obtain ⟨t, hrun, hdt, hst⟩ := ih (s.setSchedule (List.replicate n .tick ++ rest)).frameTick rest rfl
    refine ⟨t, (run_succ n hfirst).trans hrun, ?_, ?_⟩
    · rw [hdt, State.frameTick_dt_toNat, Nat.sub_sub, Nat.add_comm]; rfl
    · rw [hst, State.frameTick_st_toNat, Nat.sub_sub, Nat.add_comm]; rfl

/-! ## The quit (R257, R258) -/

/-- Settles O56, by induction on the number of steps: a step at a quit leaves the state, so the quit stays next. -/
theorem quitEndsTheSession : Obligations.QuitEndsTheSession := by
  intro s rest n hs
  induction n with
  | zero => rfl
  | succ n ih => exact (run_succ n (step_quit hs)).trans ih

end Sys2Proof.Machine
end

section
/-! PROOFS. Hazards (spec/70_reset_and_hazards.md R281): the jump to itself. -/

namespace Sys2Proof.Machine

/-- A jump to the address in PC before the advance undoes the advance (R122, R142). -/
theorem setPc_wordOfAddr_advance {s : State} {nnn : Addr12} (h : s.pc.toNat = nnn.toNat) :
    s.advance.setPc (wordOfAddr nnn) = s := by
  have hpc : wordOfAddr nnn = s.pc := BitVec.eq_of_toNat_eq ((wordOfAddr_toNat nnn).trans h.symm)
  rw [hpc]
  rfl

/-- Settles O57: the step jumps from the handler's state, whose PC is advanced, and the jump undoes the advance. -/
theorem selfJumpChangesNothing : Obligations.SelfJumpChangesNothing := by
  intro s nnn inp rest hs hstore hself hword
  rw [step_cpu hs, hword, State.handlerState_inStore (s := s.setSchedule rest) inp hstore]
  exact congrArg Host.Outcome.next
    (setPc_wordOfAddr_advance (s := (s.setSchedule rest).beginStep inp) hself)

end Sys2Proof.Machine
end
